-- ==== Sys2Proof/Word.lean ====
section
/-! DEFINITION. The bit vectors of the hardware: a general register, an instruction word, a byte.
Addresses of intermediate physical memory are natural numbers (spec 20_memory.md R51), not bit vectors. -/

namespace Sys2Proof

/-- A 64-bit value: a general register, the operand `X[t, 64]` (R9, R22), the program counter (R23). -/
abbrev Word := BitVec 64

/-- A 32-bit instruction word (R70, R74). -/
abbrev InstrWord := BitVec 32

/-- A byte of the program text (R53). -/
abbrev Byte := BitVec 8

end Sys2Proof
end

