-- ==== Sys2Proof/Syntax.lean ====
section
/-! DEFINITION. The instructions: one constructor per row of spec/opcode_table.json. -/

namespace Sys2Proof

/-- The two System instructions of the spec (R1). `rt` is the number of the register `<Xt>` (R73); an
omitted `<Xt>` is `rt = 31` (R86). A register number is a plain `Nat`; `Instr.wellFormed` bounds it. -/
inductive Instr where
  /-- `TLBI RIPAS2LE1OS (, <Xt>)`: TLB Range Invalidate by Intermediate Physical Address, Stage 2, Last
  level, EL1, Outer Shareable (R92). -/
  | tlbiRipas2le1os (rt : Nat)
  /-- `TLBI RIPAS2LE1OSNXS (, <Xt>)`: the nXS variant of the same invalidation (R93). -/
  | tlbiRipas2le1osnxs (rt : Nat)
deriving DecidableEq, Repr

/-- The number of the one register operand. -/
def Instr.rt : Instr → Nat
  | .tlbiRipas2le1os rt => rt
  | .tlbiRipas2le1osnxs rt => rt

end Sys2Proof
end

