-- ==== Sys2Proof/WellFormed.lean ====
section
/-! DEFINITION. Which instruction terms stand for an encodable instruction. -/

namespace Sys2Proof

/-- The register number fits the 5-bit field `Rt`: "values 0 to 31" (R73). No other operand exists, and
every value of the field is legal (R86 uses 31). -/
def Instr.wellFormed : Instr → Bool
  | .tlbiRipas2le1os rt => rt < 32
  | .tlbiRipas2le1osnxs rt => rt < 32

end Sys2Proof
end

