-- ==== Sys2Proof/Decode.lean ====
section
/-! DEFINITION. Decoding instruction words and bytes, and the encoder. The decoder is written from the
match and mask columns of R74, the encoder from its field columns and from R71 and R72, so that the two
say the encoding twice. -/

namespace Sys2Proof

/-- One row of the match and mask table of R74: a word `w` is the row's instruction when
`w &&& mask = pattern`; then `make` builds the instruction from the register number. -/
structure OpcodeRow where
  pattern : InstrWord
  mask : InstrWord
  make : Nat → Instr

/-- The match and mask table of R74. PRESUMED layout (assumption 12). -/
def opcodeRows : List OpcodeRow :=
  [⟨0xD50C84E0#32, 0xFFFFFFE0#32, .tlbiRipas2le1os⟩,
   ⟨0xD50C94E0#32, 0xFFFFFFE0#32, .tlbiRipas2le1osnxs⟩]

/-- The register number `t = w[4:0]` (R73, R74). -/
def rtOfWord (w : InstrWord) : Nat := (w.extractLsb' 0 5).toNat

/-- The instruction a row reads from a word, if the word is the row's. -/
def OpcodeRow.read (row : OpcodeRow) (w : InstrWord) : Option Instr :=
  if w &&& row.mask = row.pattern then some (row.make (rtOfWord w)) else none

/-- Decode one instruction word (R89): one of the two instructions, or `none`, the verdict
"not in this spec". -/
def decodeWord (w : InstrWord) : Option Instr := opcodeRows.findSome? (·.read w)

/-- What the decoder finds at the front of a list of bytes. -/
inductive Decoded where
  /-- An instruction, and the bytes after it. -/
  | instr (i : Instr) (rest : List Byte)
  /-- The third verdict of R89: the word belongs to an instruction the spec does not describe. -/
  | notInSpec (w : InstrWord)
  /-- Fewer bytes than one instruction word. -/
  | truncated
deriving DecidableEq, Repr

/-- Join the four bytes of an instruction word, the byte at the lowest address holding bits [7:0] (R53). -/
def wordOfBytes (b0 b1 b2 b3 : Byte) : InstrWord := b3 ++ b2 ++ b1 ++ b0

/-- The four bytes of an instruction word, lowest address first (R53). -/
def bytesOfWord (w : InstrWord) : List Byte :=
  [w.extractLsb' 0 8, w.extractLsb' 8 8, w.extractLsb' 16 8, w.extractLsb' 24 8]

/-- Decode the instruction at the front of a list of bytes; total. Every instruction is one word (R88). -/
def decode : List Byte → Decoded
  | b0 :: b1 :: b2 :: b3 :: rest =>
    let w := wordOfBytes b0 b1 b2 b3
    match decodeWord w with
    | some i => .instr i rest
    | none => .notInSpec w
  | _ => .truncated

/-- The System instruction word of R74 from its fields: bits [31:22] fixed, `L = 0`, then `op0`, `op1`,
`CRn`, `CRm`, `op2` and `Rt`. -/
def systemWord (op0 : BitVec 2) (op1 : BitVec 3) (crn crm : BitVec 4) (op2 : BitVec 3) (rt : BitVec 5) :
    InstrWord :=
  0b1101010100#10 ++ 0#1 ++ op0 ++ op1 ++ crn ++ crm ++ op2 ++ rt

/-- The word of an instruction, from the selecting fields of R71 and R72. -/
def encode : Instr → InstrWord
  | .tlbiRipas2le1os rt => systemWord 0b01#2 0b100#3 0b1000#4 0b0100#4 0b111#3 (BitVec.ofNat 5 rt)
  | .tlbiRipas2le1osnxs rt => systemWord 0b01#2 0b100#3 0b1001#4 0b0100#4 0b111#3 (BitVec.ofNat 5 rt)

/-- The bytes of an instruction as the hardware stores them. -/
def encodeBytes (i : Instr) : List Byte := bytesOfWord (encode i)

/-- The instruction word whose low `nbits` bits are those of `w` and whose other bits are zero. -/
def tableWord (nbits w : Nat) : InstrWord := BitVec.ofNat 32 (w % 2 ^ nbits)

/-- The instruction the decoder reads from a word of the opcode table: the word is laid out as bytes and
given to `decode`. -/
def decodeTableWord (nbits w : Nat) : Option Instr :=
  match decode (bytesOfWord (tableWord nbits w)) with
  | .instr i _ => some i
  | .notInSpec _ => none
  | .truncated => none

end Sys2Proof
end

