-- ==== Sys2Proof/Config.lean ====
section
/-! DEFINITION. The implementation parameters of 00_scope.md R5 and the small types they speak of.
The spec fixes the value of none of the features ("OPEN"), so a configuration is an argument: every
statement holds for every configuration. -/

namespace Sys2Proof

/-- The four Exception levels, the values of `PSTATE.EL` (R10, R24). -/
inductive EL where
  | el0
  | el1
  | el2
  | el3
deriving DecidableEq, Repr

/-- A translation agent: anything that owns a TLB (R20). The page gives PEs no identifiers (R140); the
model numbers them. -/
inductive Agent where
  /-- A processing element. -/
  | pe (n : Nat)
  /-- A System MMU (R64). -/
  | smmu (n : Nat)
deriving DecidableEq, Repr

/-- The fields of `SCR_EL3` the spec reads (R26 to R28), one bit each. -/
structure ScrFields where
  /-- `SCR_EL3.NS` (R26). -/
  ns : Bool
  /-- `SCR_EL3.NSE` (R27), read only with `FEAT_RME`. -/
  nse : Bool
  /-- `SCR_EL3.EEL2` (R28). -/
  eel2 : Bool
deriving DecidableEq, Repr

/-- The Exception level and the control fields of one PE (R24, R26 to R31). The page gives no bit
position in any control register, and none is needed: each field is a component of its own. -/
structure Controls where
  /-- `PSTATE.EL` (R24). -/
  el : EL
  /-- `SCR_EL3` (R26 to R28). -/
  scr : ScrFields
  /-- `HCR_EL2.NV` (R29). -/
  nv : Bool
  /-- `TCR_EL1.DS` (R30). -/
  tcrDS : Bool
  /-- `VTCR_EL2.DS`, the other bit `DS_SOURCE` may select (R30). PRESUMED (assumption 22). -/
  vtcrDS : Bool
  /-- `CurrentVMID`, a number of `VMID_BITS` bits (R31). -/
  vmid : Nat
deriving DecidableEq, Repr

/-- `RES0_POLICY` (R5, R84). -/
inductive Res0Policy where
  | noGuarantee
  | ignore
deriving DecidableEq, Repr

/-- `TTL01_16K_POLICY` (R5, R81). -/
inductive Ttl01Policy where
  | literalLevel1
  | as00
deriving DecidableEq, Repr

/-- `RANGE_MATCH` (R5, R102). -/
inductive RangeMatch where
  | within
  | overlap
deriving DecidableEq, Repr

/-- `DS_SOURCE` (R5, R30): which control bit `DS_eff` reads. -/
inductive DsSource where
  | tcrEL1
  | vtcrEL2
deriving DecidableEq, Repr

/-- The open function `EL2Enabled` (R32), as plain data: the body the spec suggests from general
knowledge, or any other predicate, given by the control states in which it holds, as they are stored (DESIGN
CHOICE, assumption 18). -/
inductive El2EnabledRule where
  | suggested
  | listed (enabledIn : List Controls)
deriving DecidableEq, Repr

/-- The configuration record of R5, fixed for the whole of a run (R46). -/
structure Config where
  /-- `FEAT_TLBIRANGE`. -/
  featTLBIRANGE : Bool
  /-- `FEAT_TLBIOS`. -/
  featTLBIOS : Bool
  /-- `FEAT_XS`. -/
  featXS : Bool
  /-- `FEAT_RME`. -/
  featRME : Bool
  /-- `FEAT_SEL2`. -/
  featSEL2 : Bool
  /-- `FEAT_D128`. -/
  featD128 : Bool
  /-- `FEAT_LPA2`. -/
  featLPA2 : Bool
  /-- `HaveEL2`: EL2 is implemented. -/
  haveEL2 : Bool
  /-- `HaveEL3`: EL3 is implemented. -/
  haveEL3 : Bool
  /-- The implementation has the bit `HCR_EL2.NV`; without it the bit is constant 0 (R29). -/
  haveNV : Bool
  /-- `VMID_BITS`. -/
  vmidBits : Nat
  /-- `OSH_DOMAIN` (R5, R63): for each PE number, the members of its Outer Shareable domain. The PE
  itself is a member whether listed or not (`oshDomain`). -/
  oshMembers : List (Nat × List Agent)
  /-- `RES0_POLICY`. -/
  res0Policy : Res0Policy
  /-- `TTL01_16K_POLICY`. -/
  ttl01Policy : Ttl01Policy
  /-- `RANGE_MATCH`. -/
  rangeMatch : RangeMatch
  /-- `DS_SOURCE`. -/
  dsSource : DsSource
  /-- `SMMU_IN_SCOPE`. -/
  smmuInScope : Bool
  /-- `SCR_EL3_eff`: the constants read in place of the `SCR_EL3` fields without EL3 (R33, D12). -/
  scrEff : ScrFields
  /-- `EL2Enabled` (R32). -/
  el2Rule : El2EnabledRule
deriving DecidableEq, Repr

/-- The configuration the reset state carries: that of program P1 in 95_test_vectors.md, with the spec's
own choices of R5 for the policies. DESIGN CHOICE (assumption 2): the spec leaves every value open. -/
def Config.example1 : Config where
  featTLBIRANGE := true
  featTLBIOS := true
  featXS := true
  featRME := false
  featSEL2 := false
  featD128 := false
  featLPA2 := false
  haveEL2 := true
  haveEL3 := true
  haveNV := true
  vmidBits := 16
  oshMembers := [(0, [.pe 0, .pe 1]), (1, [.pe 0, .pe 1])]
  res0Policy := .noGuarantee
  ttl01Policy := .literalLevel1
  rangeMatch := .within
  dsSource := .tcrEL1
  smmuInScope := false
  scrEff := ⟨true, false, false⟩
  el2Rule := .suggested

end Sys2Proof
end

