-- ==== Sys2Proof/Machine/State.lean ====
section
/-! DEFINITION. The state of the machine (10_state.md), the reasons a step can stop, and the state after
reset. Everything is plain data. -/

namespace Sys2Proof.Machine

/-- The Security state of a translation regime (R33, R36). -/
inductive SecurityState where
  | secure
  | nonSecure
  | realm
deriving DecidableEq, Repr

/-- The three IPA spaces of the page (R50). -/
inductive IpaSpace where
  | secureIPA
  | nonSecureIPA
  | realmIPA
deriving DecidableEq, Repr

/-- The translation granules (R57, R76). -/
inductive Granule where
  | g4K
  | g16K
  | g64K
deriving DecidableEq, Repr

/-- `fmt` of a TLB entry (R36). -/
inductive EntryFormat where
  | d64
  | d128
deriving DecidableEq, Repr

/-- `kind` of a TLB entry (R36). -/
inductive EntryKind where
  | s2Only
  | s1Only
  | s1s2Combined
deriving DecidableEq, Repr

/-- `regime` of a TLB entry (R36). -/
inductive Regime where
  | el10
  | other
deriving DecidableEq, Repr

/-- A TLB entry: one attribute per requirement of the page (R36). The entry translates the IPAs
`ipaBase ≤ a < ipaBase + size`; `level`, `granule` and `size` are independent (R37). -/
structure TlbEntry where
  fmt : EntryFormat
  kind : EntryKind
  leaf : Bool
  level : Int
  regime : Regime
  ss : SecurityState
  ipaSpace : IpaSpace
  vmid : Nat
  granule : Granule
  ipaBase : Nat
  size : Nat
deriving DecidableEq, Repr

/-- A memory access that has begun (R39). `uses` holds copies of the entries whose translation it used,
`xs` is its XS attribute. A completed access stays in the list with `complete` true. -/
structure Access where
  agent : Agent
  uses : List TlbEntry
  xs : Bool
  complete : Bool
deriving DecidableEq, Repr

/-- The `attr` argument of the issued operation (R17, R40). -/
inductive TlbiAttr where
  | allAttr
  | excludeXS
deriving DecidableEq, Repr

/-- The record of an issued operation (R40, with `el` by 90_conflicts.md C9). `performed` and `waits` are
sets, held as lists without repeats; `waits` names accesses by their place in `State.inFlight`. -/
structure Op where
  issuer : Nat
  attr : TlbiAttr
  ss : SecurityState
  vmid : Nat
  operand : Word
  ds : Bool
  eel2 : Bool
  el : EL
  scope : List Agent
  performed : List Agent
  waits : List Nat
deriving DecidableEq, Repr

/-- Why a PE stops. Every constructor is safe: a claim about what comes after cannot be proved (R135). -/
inductive Fault where
  /-- `Fault(Undefined)` (R131), raised by the meanings of both instructions: not present, at EL0, or at
  EL1 without the trap. Names the PE, the instruction word and the `pc`. Safe. -/
  | undefined (pe : Nat) (word : InstrWord) (pc : Word)
  /-- `Fault(TrapToEL2 0x18)` (R132), raised by the meanings of both instructions at EL1 with
  `HCR_EL2.NV`: the two arguments of `AArch64.SystemAccessTrap`, the PE, the instruction word, the `pc`.
  Safe. -/
  | systemAccessTrap (target : EL) (ec : Nat) (pe : Nat) (word : InstrWord) (pc : Word)
  /-- Raised by the fetch where the program text holds no instruction at the `pc`: what lies beyond a
  program's last instruction is not said (D36). Safe. -/
  | fetchUnwritten (pe : Nat) (pc : Word)
deriving DecidableEq, Repr

/-- Why the model gives no next state. Every constructor is safe. -/
inductive Refusal where
  /-- An instruction of the table with no meaning yet; raised by an arm of `exec` alone. Safe. -/
  | notModelled (mnemonic : String)
  /-- `SCR_EL3.{NSE, NS} = {1, 0}` with `FEAT_RME`: the target Security state has no value (R33, D13);
  raised by the issue of an operation. Safe. -/
  | noTargetSecurityState
  /-- A fetch at a `pc` that is no multiple of 4 (R23, D7). Safe. -/
  | pcMisaligned (pc : Word)
  /-- `pc + 4` wraps modulo 2^64 (R23); raised by the advance of the program counter. Safe. -/
  | pcWrap (pc : Word)
  /-- The word fetched is neither instruction: "not in this spec" (R89). Safe. -/
  | notInSpec (word : InstrWord)
deriving DecidableEq, Repr

/-- The state of one PE (R21, R140). -/
structure PE where
  /-- `x[0]` to `x[30]` (R22). -/
  x : Vector Word 31
  /-- The program counter (R23). -/
  pc : Word
  /-- `PSTATE.EL` and the control fields (R24, R26 to R31). -/
  ctl : Controls
  /-- The PE's own TLB, a finite set of entries (R35). -/
  tlb : List TlbEntry
  /-- The recorded fault (R135): once an execution has faulted the PE takes no further step. -/
  fault : Option Fault
deriving DecidableEq, Repr

/-- One move of one agent (R20). The moves of the operation agents and of the environment carry the
choices the spec leaves free. -/
inductive Event where
  /-- PE `n` executes one instruction. -/
  | pe (n : Nat)
  /-- Operation `k` is performed at agent `a` (R60). `extra` are entries removed beyond the required
  ones: the freedom of the set `K`. -/
  | perform (k : Nat) (a : Agent) (extra : List TlbEntry)
  /-- The environment completes access `i` (R39). -/
  | completeAccess (i : Nat)
  /-- The environment begins an access (R39). -/
  | beginAccess (m : Access)
  /-- The environment removes entries from a TLB (R38). -/
  | evict (a : Agent) (entries : List TlbEntry)
  /-- The environment adds an entry to a TLB (R38). -/
  | fill (a : Agent) (e : TlbEntry)
deriving DecidableEq, Repr

/-- One line of the event history of R41. -/
inductive HistoryEvent where
  /-- Operation `k` was issued with this record. -/
  | issued (k : Nat) (op : Op)
  /-- Operation `k` was performed at agent `a`, and these entries were removed. -/
  | performed (k : Nat) (a : Agent) (removed : List TlbEntry)
  /-- Operation `k` became complete. -/
  | completed (k : Nat)
deriving DecidableEq, Repr

/-- The whole machine (R21). `cfg`, `mem`, `schedule`, `self` and `history` are the model's own fields:
the configuration and the program text are parameters of the run (R46, R67) that no step changes; the
schedule says which agent moves next; `self` is the PE that executes; `history` is R41's. -/
structure State where
  /-- The configuration record (R5). -/
  cfg : Config
  /-- The PEs, PE `n` at place `n` (R140). -/
  pes : List PE
  /-- The TLBs of the System MMUs, System MMU `n` at place `n` (R20, R35). -/
  smmus : List (List TlbEntry)
  /-- The PE that executes. -/
  self : Nat
  /-- `InFlight` (R39). -/
  inFlight : List Access
  /-- `Ops` (R40), in the order of issue. -/
  ops : List Op
  /-- The program text as bytes (R53, R67), in the canonical form of `Memory.wf`. -/
  mem : List Host.Cell
  /-- The moves of the agents still to come; when none is left, PE `self` executes. -/
  schedule : List Event
  /-- The event history (R41), oldest first. -/
  history : List HistoryEvent
deriving DecidableEq, Repr

/-- A PE right after reset. The spec gives no reset value (R45, R150); the values are the model's
(assumptions 3 to 6). -/
def PE.reset : PE where
  x := Vector.replicate 31 0#64
  pc := 0#64
  ctl := ⟨.el3, ⟨false, false, false⟩, false, false, false, 0⟩
  tlb := []
  fault := none

/-- The machine right after reset. `Ops` is empty by R45; every other value is the model's (assumptions
2 to 6), since the spec states none (R150). -/
def State.reset : State where
  cfg := Config.example1
  pes := [PE.reset, PE.reset]
  smmus := []
  self := 0
  inFlight := []
  ops := []
  mem := []
  schedule := []
  history := []

end Sys2Proof.Machine
end

