-- ==== Sys2Proof/Machine/Ops.lean ====
section
/-! DEFINITION. The named operations over registers, TLBs and the program text, and the two ways an
execution ends in an exception. -/

namespace Sys2Proof.Machine

/-! ### PEs and general registers -/

/-- The state of PE `n`. -/
def State.peAt (s : State) (n : Nat) : PE := s.pes.getD n PE.reset

/-- The state of the executing PE. -/
def State.pe (s : State) : PE := s.peAt s.self

/-- Replace the state of PE `n`. -/
def State.setPE (s : State) (n : Nat) (p : PE) : State := { s with pes := s.pes.set n p }

/-- Read of general register `n` (R22): `x[0]` to `x[30]`, and number 31 reads as zero. PRESUMED
(assumption 13); a number no field can encode also reads as zero. -/
def PE.readX (p : PE) (n : Nat) : Word := if n = 31 then 0#64 else p.x[n]?.getD 0#64

/-! ### Translation agents and their TLBs -/

/-- `TLB[a]` (R35). An agent that does not exist holds no entry. -/
def State.tlb (s : State) : Agent → List TlbEntry
  | .pe n => (s.peAt n).tlb
  | .smmu n => s.smmus.getD n []

/-- Replace `TLB[a]`. -/
def State.setTlb (s : State) (a : Agent) (t : List TlbEntry) : State :=
  match a with
  | .pe n => s.setPE n { s.peAt n with tlb := t }
  | .smmu n => { s with smmus := s.smmus.set n t }

/-- The agent is one of the machine's. -/
def State.hasAgent (s : State) : Agent → Bool
  | .pe n => n < s.pes.length
  | .smmu n => n < s.smmus.length

/-- `OSH_DOMAIN(PE n)` as a list without repeats; it always contains the PE itself (R5, R63). -/
def oshDomain (cfg : Config) (n : Nat) : List Agent :=
  .pe n :: ((cfg.oshMembers.lookup n).getD []).dedup.filter (· ≠ .pe n)

/-! ### The program text -/

/-- One byte of the program text; an address never written holds no value (assumption 10). -/
def Memory.read (m : List Host.Cell) (a : Nat) : Option Byte := m.lookup a

/-- Write one byte, keeping the addresses rising. -/
def Memory.write : List Host.Cell → Nat → Byte → List Host.Cell
  | [], a, b => [(a, b)]
  | (x, c) :: m, a, b =>
    if a < x then (a, b) :: (x, c) :: m
    else if a = x then (a, b) :: m
    else (x, c) :: Memory.write m a b

/-- Addresses strictly rising, each above `lo`. -/
def Memory.risingFrom : Option Nat → List Host.Cell → Bool
  | _, [] => true
  | lo, (x, _) :: m => lo.all (· < x) && Memory.risingFrom (some x) m

/-- The canonical form of the program text: addresses strictly rising and below 2^64. -/
def Memory.wf (m : List Host.Cell) : Bool :=
  Memory.risingFrom none m && m.all (fun c => c.1 < 2 ^ 64)

/-- The address of byte `i` of the instruction at `pc`; the model never relies on its wrap (R23). -/
def byteAddr (pc : Word) (i : Nat) : Nat := (pc + BitVec.ofNat 64 i).toNat

/-- The four bytes of the instruction at `pc`, lowest address first (R53), if all are there. -/
def Memory.readWord (m : List Host.Cell) (pc : Word) : Option (List Byte) := do
  let b0 ← Memory.read m (byteAddr pc 0)
  let b1 ← Memory.read m (byteAddr pc 1)
  let b2 ← Memory.read m (byteAddr pc 2)
  let b3 ← Memory.read m (byteAddr pc 3)
  return [b0, b1, b2, b3]

/-- Store an instruction word at `pc` as the fetch reads it. -/
def Memory.writeWord (m : List Host.Cell) (pc : Word) (w : InstrWord) : List Host.Cell :=
  let m0 := Memory.write m (byteAddr pc 0) (w.extractLsb' 0 8)
  let m1 := Memory.write m0 (byteAddr pc 1) (w.extractLsb' 8 8)
  let m2 := Memory.write m1 (byteAddr pc 2) (w.extractLsb' 16 8)
  Memory.write m2 (byteAddr pc 3) (w.extractLsb' 24 8)

/-! ### The program counter -/

/-- The state with the executing PE's `pc` moved past the 4-byte instruction. -/
def State.withNextPc (s : State) : State := s.setPE s.self { s.pe with pc := s.pe.pc + 4#64 }

/-- `pc <- pc + 4` for the executing PE; where the addition wraps, a refusal (R23). -/
def advancePc (s : State) : Host.Outcome State Fault Refusal :=
  if s.pe.pc.toNat + 4 < 2 ^ 64 then .next s.withNextPc
  else .refused (.pcWrap s.pe.pc)

/-! ### Taking an exception

The page says nothing of exception entry (R135; 00_scope.md R4 leaves it out): an execution that raises an
exception ends in a named fault with every piece of state unchanged. There is no return (R136). -/

/-- `raise Undefined()` (R11, R131). -/
def raiseUndefined (w : InstrWord) (s : State) : Host.Outcome State Fault Refusal :=
  .fault (.undefined s.self w s.pe.pc)

/-- `raise SystemAccessTrap(target, ec)` (R12, R132). -/
def raiseSystemAccessTrap (target : EL) (ec : Nat) (w : InstrWord) (s : State) :
    Host.Outcome State Fault Refusal :=
  .fault (.systemAccessTrap target ec s.self w s.pe.pc)

/-- Record the fault the executing PE ended in (R135); nothing else changes (R142). -/
def State.recordFault (s : State) (f : Fault) : State := s.setPE s.self { s.pe with fault := some f }

/-- The syndrome `ESR_EL2` a larger model may attach to the trap, from the trapped word (R132):
`EC = 0x18`, `IL = 1`, and `ISS` from the word's fields with `Direction = 0`. PRESUMED (assumption 45);
no meaning uses it. -/
def trapSyndrome (w : InstrWord) : BitVec 32 :=
  0x18#6 ++ 1#1 ++ 0#3 ++ w.extractLsb' 19 2 ++ w.extractLsb' 5 3 ++ w.extractLsb' 16 3 ++
    w.extractLsb' 12 4 ++ w.extractLsb' 0 5 ++ w.extractLsb' 8 4 ++ 0#1

end Sys2Proof.Machine
end

