-- ==== Sys2Proof/Machine/Flags.lean ====
section
/-! DEFINITION. What the instructions compute from `PSTATE.EL` and the control fields (R24 to R33). There
is no condition flag in the spec: neither instruction reads or writes one (R25). -/

namespace Sys2Proof.Machine

/-- The `SCR_EL3` fields the model reads: the PE's own, or the configuration's constants on a PE without
EL3 (R33, D12). -/
def scrEff (cfg : Config) (c : Controls) : ScrFields := if cfg.haveEL3 then c.scr else cfg.scrEff

/-- `HCR_EL2.NV`, constant 0 where the implementation has no such bit (R29). -/
def nvEff (cfg : Config) (c : Controls) : Bool := cfg.haveNV && c.nv

/-- `DS_eff` (R30): the control bit `DS_SOURCE` selects. -/
def dsEff (cfg : Config) (c : Controls) : Bool :=
  match cfg.dsSource with
  | .tcrEL1 => c.tcrDS
  | .vtcrEL2 => c.vtcrDS

/-- The open part of `EL2Enabled` (R32): the suggested body, or the listed control states. DESIGN CHOICE
(assumption 18): R32 leaves open whether its argument holds the control fields as stored or as the model reads
them elsewhere. A listed state is compared as stored, so the predicate may depend on the `SCR_EL3` fields without
EL3 (where R33 reads constants), on `NSE` without `FEAT_RME` and on `NV` without the bit; the suggested body reads
`scrEff`. -/
def el2EnabledBody (cfg : Config) (c : Controls) : Bool :=
  match cfg.el2Rule with
  | .suggested => !cfg.haveEL3 || (scrEff cfg c).ns || (cfg.featSEL2 && (scrEff cfg c).eel2)
  | .listed enabledIn => enabledIn.contains c

/-- `EL2Enabled()` (R13, R32): false without EL2, true at EL2, and otherwise open. -/
def el2Enabled (cfg : Config) (c : Controls) : Bool :=
  cfg.haveEL2 && (c.el == .el2 || el2EnabledBody cfg c)

/-- `TargetSS`, the value of `SecurityStateAtEL(EL1)` (R14, R33); `none` where the table has no row. -/
def targetSS (cfg : Config) (c : Controls) : Option SecurityState :=
  let scr := scrEff cfg c
  if cfg.featRME then
    match scr.nse, scr.ns with
    | false, false => some .secure
    | false, true => some .nonSecure
    | true, true => some .realm
    | true, false => none
  else if scr.ns then some .nonSecure
  else some .secure

/-- Both instructions are present (R91): "only when FEAT_TLBIRANGE is implemented and FEAT_TLBIOS is
implemented". -/
def present (cfg : Config) : Bool := cfg.featTLBIRANGE && cfg.featTLBIOS

end Sys2Proof.Machine
end

