-- ==== Sys2Proof/Machine/Operands.lean ====
section
/-! DEFINITION. The 64-bit operand: its fields (R75), the granule, the range and its arithmetic (R76 to
R80), the level hint (R81), the IPA space (R82), reserved bits (R84) and the unpredictable ranges (R105). -/

namespace Sys2Proof.Machine

/-! ### Fields (R75) -/

/-- `NS`, bit [63]. -/
def operandNS (v : Word) : Bool := v.getLsbD 63

/-- The reserved bits [62:48]. -/
def operandRes0 (v : Word) : BitVec 15 := v.extractLsb' 48 15

/-- `TG`, bits [47:46]. -/
def operandTG (v : Word) : BitVec 2 := v.extractLsb' 46 2

/-- `SCALE`, bits [45:44]. -/
def operandSCALE (v : Word) : BitVec 2 := v.extractLsb' 44 2

/-- `NUM`, bits [43:39]. -/
def operandNUM (v : Word) : BitVec 5 := v.extractLsb' 39 5

/-- `TTL`, bits [38:37]. -/
def operandTTL (v : Word) : BitVec 2 := v.extractLsb' 37 2

/-- `BaseADDR`, bits [36:0]. -/
def operandBaseADDR (v : Word) : BitVec 37 := v.extractLsb' 0 37

/-! ### Granule and range -/

/-- The granule `TG` selects; `0b00` is reserved and selects none (R76, R85). -/
def granuleOfTG (tg : BitVec 2) : Option Granule :=
  if tg = 0b01#2 then some .g4K
  else if tg = 0b10#2 then some .g16K
  else if tg = 0b11#2 then some .g64K
  else none

/-- `GranuleShift` (R76). -/
def Granule.shift : Granule → Nat
  | .g4K => 12
  | .g16K => 14
  | .g64K => 16

/-- `GranuleBytes` (R76). -/
def Granule.bytes (g : Granule) : Nat := 2 ^ g.shift

/-- `Base` (R78): the lowest bit the field supplies is bit 16 with `FEAT_LPA2` and `DS_eff`, else the
granule's. -/
def rangeBase (cfg : Config) (ds : Bool) (g : Granule) (v : Word) : Nat :=
  if cfg.featLPA2 && ds then (operandBaseADDR v).toNat * 2 ^ 16
  else (operandBaseADDR v).toNat * 2 ^ g.shift

/-- `Len` (R79), exact (R80). -/
def rangeLen (g : Granule) (v : Word) : Nat :=
  ((operandNUM v).toNat + 1) * 2 ^ (5 * (operandSCALE v).toNat + 1) * g.bytes

/-- `End = Base + Len` (R80), exact. -/
def rangeEnd (cfg : Config) (ds : Bool) (g : Granule) (v : Word) : Nat :=
  rangeBase cfg ds g v + rangeLen g v

/-! ### Level hint -/

/-- `TTLLevel` (R81). -/
inductive TtlLevel where
  | any
  | l1
  | l2
  | l3
deriving DecidableEq, Repr

/-- `TTLLevel` of an operand (R81). -/
def ttlLevel (cfg : Config) (v : Word) : TtlLevel :=
  if operandTTL v = 0b00#2 then .any
  else if operandTTL v = 0b01#2 then
    if operandTG v = 0b10#2 && !cfg.featLPA2 then
      match cfg.ttl01Policy with
      | .as00 => .any
      | .literalLevel1 => .l1
    else .l1
  else if operandTTL v = 0b10#2 then .l2
  else .l3

/-- The hint admits a leaf entry of this level (R99). -/
def TtlLevel.admits : TtlLevel → Int → Bool
  | .any, _ => true
  | .l1, n => n == 1
  | .l2, n => n == 2
  | .l3, n => n == 3

/-! ### IPA space and reserved bits -/

/-- How operand bit 63 is read (R82): whether the page calls it res0, and the space it leads to. -/
structure NsReading where
  isRes0 : Bool
  space : Option IpaSpace
deriving DecidableEq, Repr

/-- The space the live bit selects (R82). -/
def spaceOfNS (ns : Bool) : IpaSpace := if ns then .nonSecureIPA else .secureIPA

/-- `NSisRES0` and `IPASpace` (R82), from the target Security state, the Exception level of the issue and
the bit. -/
def nsReading (cfg : Config) (ss : SecurityState) (el : EL) (ns : Bool) : NsReading :=
  if cfg.featRME then
    match ss with
    | .secure => ⟨false, some (spaceOfNS ns)⟩
    | .realm => ⟨true, some .realmIPA⟩
    | .nonSecure => ⟨true, some .nonSecureIPA⟩
  else if cfg.featSEL2 then
    if ss == .nonSecure && el == .el2 then ⟨true, some .nonSecureIPA⟩
    else if ss == .nonSecure && el == .el3 then ⟨false, if ns then some .nonSecureIPA else none⟩
    else ⟨false, some (spaceOfNS ns)⟩
  else ⟨true, if ss == .nonSecure then some .nonSecureIPA else none⟩

/-- `Res0Clean` (R84). -/
def res0Clean (cfg : Config) (nsIsRes0 : Bool) (v : Word) : Bool :=
  match cfg.res0Policy with
  | .ignore => true
  | .noGuarantee => operandRes0 v == 0#15 && (!nsIsRes0 || !operandNS v)

/-! ### Unpredictable ranges -/

/-- `n[hi:lo]` of a natural number (R6). -/
def natBits (n hi lo : Nat) : Nat := n / 2 ^ lo % 2 ^ (hi - lo + 1)

/-- A row of the table of R105: with this granule and this `TTL` the range is unpredictable when
`Base[hi:lo] ≠ 0`. -/
structure UnpredictableRow where
  granule : Granule
  ttl : BitVec 2
  hi : Nat
  lo : Nat
deriving DecidableEq, Repr

/-- The table of R105. -/
def unpredictableRows : List UnpredictableRow :=
  [⟨.g4K, 0b01#2, 29, 12⟩,
   ⟨.g4K, 0b10#2, 20, 12⟩,
   ⟨.g16K, 0b10#2, 24, 14⟩,
   ⟨.g64K, 0b01#2, 41, 16⟩,
   ⟨.g64K, 0b10#2, 28, 16⟩]

/-- A row of R105 holds for this granule, hint and start address. -/
def rangeUnpredictable (g : Granule) (ttl : BitVec 2) (base : Nat) : Bool :=
  unpredictableRows.any fun r =>
    r.granule == g && r.ttl == ttl && natBits base r.hi r.lo != 0

end Sys2Proof.Machine
end

