-- ==== Sys2Proof/Machine/Required.lean ====
section
/-! DEFINITION. The entries an operation is required to remove (40_tlbi_ripas2le1os.md section 5). -/

namespace Sys2Proof.Machine

/-- The granule the operation's operand names. -/
def Op.granule (op : Op) : Option Granule := granuleOfTG (operandTG op.operand)

/-- The IPA space the operation acts on, and whether bit 63 is res0 (R82, R96). -/
def Op.nsReading (cfg : Config) (op : Op) : NsReading :=
  Machine.nsReading cfg op.ss op.el (operandNS op.operand)

/-- `Unpredictable(op)` (R105). -/
def Op.unpredictable (cfg : Config) (op : Op) : Bool :=
  op.granule.any fun g =>
    rangeUnpredictable g (operandTTL op.operand) (rangeBase cfg op.ds g op.operand)

/-- `Guarantee(op)` (R97). -/
def Op.guarantee (cfg : Config) (op : Op) : Bool :=
  op.granule.isSome && res0Clean cfg (op.nsReading cfg).isRes0 op.operand &&
    (op.nsReading cfg).space.isSome && !op.unpredictable cfg

/-- `KindOK(op, e)` (R99, R100). -/
def Op.kindOK (cfg : Config) (op : Op) (e : TlbEntry) : Bool :=
  e.kind == .s2Only && e.leaf &&
    ((e.fmt == .d64 && (ttlLevel cfg op.operand).admits e.level) ||
      (cfg.featD128 && e.fmt == .d128 && operandTTL op.operand == 0b00#2))

/-- `InRange(op, e)` (R102), with the granule decoded. -/
def Op.inRange (cfg : Config) (op : Op) (g : Granule) (e : TlbEntry) : Bool :=
  let lo := rangeBase cfg op.ds g op.operand
  let hi := rangeEnd cfg op.ds g op.operand
  match cfg.rangeMatch with
  | .within => decide (lo ≤ e.ipaBase) && decide (e.ipaBase + e.size ≤ hi)
  | .overlap => decide (e.ipaBase < hi) && decide (lo < e.ipaBase + e.size)

/-- `AgentOK(op, a, e)` (R64, R108). The `SCR_EL3.EEL2` of another PE is read when the operation is
performed there, from the state `s`. -/
def Op.agentOK (s : State) (op : Op) (a : Agent) (e : TlbEntry) : Bool :=
  match a with
  | .pe n =>
    n == op.issuer || op.ss != .secure || (scrEff s.cfg (s.peAt n).ctl).eel2 == op.eel2
  | .smmu _ =>
    if op.ss == .secure then op.vmid == 0 && e.vmid == 0 else s.cfg.smmuInScope

/-- `ReqPred(op, a, e)` (R97): the conjunction of the page's requirements. -/
def Op.reqPred (s : State) (op : Op) (a : Agent) (e : TlbEntry) : Bool :=
  op.guarantee s.cfg && op.kindOK s.cfg e && e.regime == .el10 && e.ss == op.ss &&
    some e.ipaSpace == (op.nsReading s.cfg).space && e.vmid == op.vmid &&
    some e.granule == op.granule && op.granule.any (fun g => op.inRange s.cfg g e) &&
    op.agentOK s a e

/-- `Required(op, a)` (R97), evaluated in the state just before the perform step. -/
def Op.required (s : State) (op : Op) (a : Agent) : List TlbEntry := (s.tlb a).filter (op.reqPred s a)

end Sys2Proof.Machine
end

