-- ==== Sys2Proof/Machine/Agents.lean ====
section
/-! DEFINITION. The moves of the operation agents and of the environment (R20, R38, R39, R60), the
completion of an operation (R60, R61), and the event history (R41). -/

namespace Sys2Proof.Machine

/-! ### Well-formed entries (R36, R100, R139) -/

/-- An entry a faithful state can hold: it covers at least one address and its VMID has `VMID_BITS` bits
(R36), the 128-bit format appears only with `FEAT_D128` (R100) and the Realm Security state only with
`FEAT_RME` (R139). The IPA space is any of the three, whatever the features (R36). -/
def TlbEntry.wf (cfg : Config) (e : TlbEntry) : Bool :=
  decide (0 < e.size) && decide (e.vmid < 2 ^ cfg.vmidBits) && (e.fmt != .d128 || cfg.featD128) &&
    (e.ss != .realm || cfg.featRME)

/-! ### Completion (R60, R61) -/

/-- The access no longer holds up an operation with this attribute. -/
def Access.released (attr : TlbiAttr) (m : Access) : Bool :=
  m.complete || (attr == .excludeXS && m.xs)

/-- `Complete(op)`: performed at exactly the agents of its scope, and no waited access holds it up. -/
def Op.complete (inFlight : List Access) (op : Op) : Bool :=
  op.scope.all (fun a => op.performed.contains a) && op.performed.all (fun a => op.scope.contains a) &&
    op.waits.all (fun i => (inFlight[i]?).any (·.released op.attr))

/-- Operation `k` exists and is complete. -/
def State.opComplete (s : State) (k : Nat) : Bool := (s.ops[k]?).any (·.complete s.inFlight)

/-! ### The perform step (R60) -/

/-- The operation may still be performed at the agent: "once for each translation agent `a` in
`op.scope`". -/
def Op.pendingAt (op : Op) (a : Agent) : Bool := op.scope.contains a && !op.performed.contains a

/-- The access is one the operation must wait for when it is performed at `a` in state `s`. -/
def Op.waitsFor (s : State) (op : Op) (a : Agent) (m : Access) : Bool :=
  m.agent == a && !m.complete && m.uses.any (op.reqPred s a)

/-- The places of `InFlight` the perform step adds to `op.waits`. -/
def Op.newWaits (s : State) (op : Op) (a : Agent) : List Nat :=
  (List.range s.inFlight.length).filter fun i =>
    (s.inFlight[i]?).any (op.waitsFor s a) && !op.waits.contains i

/-- The set `K` of R60: the required entries, and those of `extra` that the TLB holds. Every `K` between
`Required(op, a)` and `TLB[a]` is given by some `extra`. -/
def Op.removedAt (s : State) (op : Op) (a : Agent) (extra : List TlbEntry) : List TlbEntry :=
  (s.tlb a).filter fun e => op.reqPred s a e || extra.contains e

/-- The entries that stay. -/
def Op.keptAt (s : State) (op : Op) (a : Agent) (extra : List TlbEntry) : List TlbEntry :=
  (s.tlb a).filter fun e => !(op.reqPred s a e || extra.contains e)

/-- The operation's record after it was performed at `a` in state `s`. -/
def Op.afterPerform (s : State) (op : Op) (a : Agent) : Op :=
  { op with performed := op.performed ++ [a], waits := op.waits ++ op.newWaits s a }

/-- Perform operation `k` at agent `a` (R60, R98); a move that is not open changes nothing. -/
def State.performAt (s : State) (k : Nat) (a : Agent) (extra : List TlbEntry) : State :=
  match s.ops[k]? with
  | none => s
  | some op =>
    if op.pendingAt a then
      { s.setTlb a (op.keptAt s a extra) with
        ops := s.ops.set k (op.afterPerform s a)
        history := s.history ++ [.performed k a (op.removedAt s a extra)] }
    else s

/-! ### The environment (R38, R39) -/

/-- Access `i` completes; a completed access never goes back (R39). -/
def State.completeAccess (s : State) (i : Nat) : State :=
  match s.inFlight[i]? with
  | none => s
  | some m => { s with inFlight := s.inFlight.set i { m with complete := true } }

/-- A memory access begins, not complete. It is made by an agent of the machine and used well-formed
entries; otherwise nothing happens. -/
def State.beginAccess (s : State) (m : Access) : State :=
  if s.hasAgent m.agent && m.uses.all (TlbEntry.wf s.cfg) then
    { s with inFlight := s.inFlight ++ [{ m with complete := false }] }
  else s

/-- Entries are dropped from a TLB: "a TLB is a cache and promises to keep nothing" (R38). -/
def State.evict (s : State) (a : Agent) (entries : List TlbEntry) : State :=
  s.setTlb a ((s.tlb a).filter fun e => !entries.contains e)

/-- An entry is added to a TLB (R38); an ill-formed entry, or one already there, is not. -/
def State.fill (s : State) (a : Agent) (e : TlbEntry) : State :=
  if e.wf s.cfg && !(s.tlb a).contains e then s.setTlb a (s.tlb a ++ [e]) else s

/-! ### The event history (R41) -/

/-- The operations of `after` that `before` did not hold. -/
def issuedSince (before after : State) : List HistoryEvent :=
  (List.range after.ops.length).filterMap fun k =>
    if k < before.ops.length then none else (after.ops[k]?).map (.issued k)

/-- The operations complete in `after` and not in `before`. -/
def completedSince (before after : State) : List HistoryEvent :=
  (List.range after.ops.length).filterMap fun k =>
    if after.opComplete k && !before.opComplete k then some (.completed k) else none

/-- `after`, with the operations issued and completed since `before` noted in the history. -/
def State.noted (before after : State) : State :=
  { after with history := after.history ++ issuedSince before after ++ completedSince before after }

/-! ### One move of an agent that is not a PE -/

/-- The move an event names, `pe` apart, which is the business of the step. -/
def State.agentMove (s : State) : Event → State
  | .pe _ => s
  | .perform k a extra => s.performAt k a extra
  | .completeAccess i => s.completeAccess i
  | .beginAccess m => s.beginAccess m
  | .evict a entries => s.evict a entries
  | .fill a e => s.fill a e

end Sys2Proof.Machine
end

