-- ==== Sys2Proof/Machine/Tlbi.lean ====
section
/-! DEFINITION. The meanings of the two instructions (40_tlbi_ripas2le1os.md). -/

namespace Sys2Proof.Machine

/-- The record `Issue(attr, v)` adds to `Ops` (R94), every field sampled from the executing PE. -/
def issueRecord (s : State) (attr : TlbiAttr) (ss : SecurityState) (v : Word) : Op where
  issuer := s.self
  attr := attr
  ss := ss
  vmid := s.pe.ctl.vmid
  operand := v
  ds := dsEff s.cfg s.pe.ctl
  eel2 := (scrEff s.cfg s.pe.ctl).eel2
  el := s.pe.ctl.el
  scope := oshDomain s.cfg s.self
  performed := []
  waits := []

/-- `Ops` with one more record. -/
def State.addOp (s : State) (op : Op) : State := { s with ops := s.ops ++ [op] }

/-- `Issue(attr, v); pc <- pc + 4` (R94, R112): refused where the target Security state has no value. -/
def issueAndAdvance (attr : TlbiAttr) (v : Word) (s : State) : Host.Outcome State Fault Refusal :=
  match targetSS s.cfg s.pe.ctl with
  | none => .refused .noTargetSecurityState
  | some ss => advancePc (s.addOp (issueRecord s attr ss v))

/-- The if-chain over `PSTATE.EL` that both instructions share (R109 to R113); `w` is the instruction
word, which a fault names. -/
def tlbiByEL (attr : TlbiAttr) (rt : Nat) (w : InstrWord) (s : State) : Host.Outcome State Fault Refusal :=
  match s.pe.ctl.el with
  | .el0 => raiseUndefined w s
  | .el1 =>
    if el2Enabled s.cfg s.pe.ctl && nvEff s.cfg s.pe.ctl then raiseSystemAccessTrap .el2 0x18 w s
    else raiseUndefined w s
  | .el2 => issueAndAdvance attr (s.pe.readX rt) s
  | .el3 =>
    if el2Enabled s.cfg s.pe.ctl then issueAndAdvance attr (s.pe.readX rt) s
    else advancePc s

/-- `TLBI RIPAS2LE1OS` (R92): the presence check (R91), then the chain, issuing with `AllAttr`. -/
def execTlbiRipas2le1os (rt : Nat) (s : State) : Host.Outcome State Fault Refusal :=
  let w := encode (.tlbiRipas2le1os rt)
  if present s.cfg then tlbiByEL .allAttr rt w s
  else raiseUndefined w s

/-- `TLBI RIPAS2LE1OSNXS` (R93): the presence check and the check of `FEAT_XS` (R91), then the chain,
issuing with `ExcludeXS`. -/
def execTlbiRipas2le1osnxs (rt : Nat) (s : State) : Host.Outcome State Fault Refusal :=
  let w := encode (.tlbiRipas2le1osnxs rt)
  if present s.cfg then
    if s.cfg.featXS then tlbiByEL .excludeXS rt w s
    else raiseUndefined w s
  else raiseUndefined w s

end Sys2Proof.Machine
end

