-- ==== Sys2Proof/Machine/Dispatch.lean ====
section
/-! DEFINITION. Which meaning each instruction has. -/

namespace Sys2Proof.Machine

def exec (i : Instr) (s : State) : Host.Outcome State Fault Refusal :=
  match i with
  | .tlbiRipas2le1os rt => Sys2Proof.Machine.execTlbiRipas2le1os rt s
  | .tlbiRipas2le1osnxs rt => Sys2Proof.Machine.execTlbiRipas2le1osnxs rt s

end Sys2Proof.Machine
end

