-- ==== Sys2Proof/Machine/Fetch.lean ====
section
/-! DEFINITION. One step of a PE: fetch, decode, execute (R90), and what becomes of a fault (R135). -/

namespace Sys2Proof.Machine

/-- What the executing PE's fetch finds. -/
inductive Fetched where
  /-- A decoded instruction. -/
  | instr (i : Instr)
  /-- The fetch or the decoding stops. -/
  | fault (f : Fault)
  | refused (r : Refusal)
deriving DecidableEq, Repr

/-- Fetch and decode at the executing PE's `pc`: a `pc` that is no multiple of 4 is refused (R23), a word
of neither instruction is refused (R89), and text that is not there faults (assumption 10). DESIGN CHOICE
(assumption 48): the fetch adds no access to `InFlight`, which R67 leaves to the model; the environment may
begin one for it. -/
def fetch (s : State) : Fetched :=
  if s.pe.pc.toNat % 4 = 0 then
    match Memory.readWord s.mem s.pe.pc with
    | none => .fault (.fetchUnwritten s.self s.pe.pc)
    | some bytes =>
      match decode bytes with
      | .instr i _ => .instr i
      | .notInSpec w => .refused (.notInSpec w)
      | .truncated => .fault (.fetchUnwritten s.self s.pe.pc)
  else .refused (.pcMisaligned s.pe.pc)

/-- The executing PE executes one instruction. -/
def executeOne (s : State) : Host.Outcome State Fault Refusal :=
  match fetch s with
  | .instr i => exec i s
  | .fault f => .fault f
  | .refused r => .refused r

/-- What the machine makes of one execution: a next state is noted in the history (R41); a fault is
recorded in the PE that raised it, and only that PE stops (R135, R142), since operations already issued
are still performed and completed; a refusal stops the machine. -/
def settle (s : State) : Host.Outcome State Fault Refusal → Host.Outcome State Fault Refusal
  | .next t => .next (s.noted t)
  | .fault f => .next (s.recordFault f)
  | .refused r => .refused r

/-- A step of PE `self`: one that has faulted takes no further step (R135). -/
def stepPE (s : State) : Host.Outcome State Fault Refusal :=
  match s.pe.fault with
  | some f => .fault f
  | none => settle s (executeOne s)

/-- One scheduled move. A PE that does not exist does not move. -/
def stepEvent (s : State) : Event → Host.Outcome State Fault Refusal
  | .pe n => if n < s.pes.length then stepPE { s with self := n } else .next s
  | ev => .next (s.noted (s.agentMove ev))

end Sys2Proof.Machine
end

