-- ==== Sys2Proof/Machine/Step.lean ====
section
/-! DEFINITION. One step of the machine, and the state from which the next step runs a given word. -/

namespace Sys2Proof.Machine

/-- The schedule says which agent moves; when it is empty PE `self` executes (R20). -/
def step (s : State) : Host.Outcome State Fault Refusal :=
  match s.schedule with
  | [] => stepPE s
  | ev :: rest => stepEvent { s with schedule := rest } ev

/-- `s` with the instruction word stored where PE `self` fetches next, that PE scheduled next and not
stopped by an earlier fault. It stands for loading a program from outside (assumption 11). -/
def State.withFetchWord (s : State) (nbits w : Nat) : State :=
  { s with
    mem := Memory.writeWord s.mem s.pe.pc (tableWord nbits w)
    pes := s.pes.set s.self { s.pe with fault := none }
    schedule := if s.schedule.isEmpty then [] else .pe s.self :: s.schedule }

end Sys2Proof.Machine
end

