-- ==== Sys2Proof/Safety.lean ====
section
/-! DEFINITION. What a faithful state is: the types and ranges the spec gives each piece of state, as one
decidable predicate, and what the history of a run records. -/

namespace Sys2Proof.Machine

/-- The instruction is implemented (R91): both need `FEAT_TLBIRANGE` and `FEAT_TLBIOS`, the nXS variant
also `FEAT_XS`. -/
def implemented (cfg : Config) : Instr → Bool
  | .tlbiRipas2le1os _ => cfg.featTLBIRANGE && cfg.featTLBIOS
  | .tlbiRipas2le1osnxs _ => cfg.featTLBIRANGE && cfg.featTLBIOS && cfg.featXS

/-- The `attr` argument each instruction passes (R17). -/
def attrOf : Instr → TlbiAttr
  | .tlbiRipas2le1os _ => .allAttr
  | .tlbiRipas2le1osnxs _ => .excludeXS

/-- The Exception level exists: EL2 and EL3 only where implemented (R138). -/
def legalEL (cfg : Config) : EL → Bool
  | .el0 => true
  | .el1 => true
  | .el2 => cfg.haveEL2
  | .el3 => cfg.haveEL3

/-- A TLB holds each entry once, and only well-formed ones (R35, R36). -/
abbrev tlbWf (cfg : Config) (t : List TlbEntry) : Prop := t.Nodup ∧ ∀ e ∈ t, e.wf cfg = true

/-- A PE's state has the types of 10_state.md: a legal Exception level, a `CurrentVMID` of `VMID_BITS`
bits (R31), a `pc` that is a multiple of 4 (R23), a well-formed TLB. -/
abbrev PE.Wf (cfg : Config) (p : PE) : Prop :=
  legalEL cfg p.ctl.el = true ∧ p.ctl.vmid < 2 ^ cfg.vmidBits ∧ p.pc.toNat % 4 = 0 ∧ tlbWf cfg p.tlb

/-- An operation's record is one that an issue and its perform steps can have left (R40): issued at EL2 or
EL3, for a Security state the features allow, with the issuer's domain as its scope, performed at distinct
agents of that scope, waiting for distinct accesses that exist. -/
abbrev Op.Wf (cfg : Config) (nAccesses : Nat) (op : Op) : Prop :=
  (op.el = .el2 ∨ op.el = .el3) ∧ (op.ss = .realm → cfg.featRME = true) ∧ op.vmid < 2 ^ cfg.vmidBits ∧
    op.scope = oshDomain cfg op.issuer ∧ op.performed.Nodup ∧ (∀ a ∈ op.performed, a ∈ op.scope) ∧
    op.waits.Nodup ∧ ∀ i ∈ op.waits, i < nAccesses

/-- A state that has the types and ranges the spec gives. Every step keeps it
(`Obligations.StepKeepsStateWellFormed`). -/
abbrev State.Wf (s : State) : Prop :=
  s.self < s.pes.length ∧ (∀ p ∈ s.pes, p.Wf s.cfg) ∧ (∀ t ∈ s.smmus, tlbWf s.cfg t) ∧
    (∀ m ∈ s.inFlight, ∀ e ∈ m.uses, e.wf s.cfg = true) ∧
    (∀ op ∈ s.ops, op.Wf s.cfg s.inFlight.length) ∧ Memory.wf s.mem = true

/-- The record as it was issued (R94): what `Issue` sampled, nothing performed, nothing waited for. -/
def Op.asIssued (op : Op) : Op := { op with performed := [], waits := [] }

/-- The history agrees with the records (R41): it notes exactly the issues of the operations there are,
each with the record it had, exactly the agents each was performed at, and exactly the completions; nothing
twice, and one perform for each operation and agent. -/
def State.HistoryAgrees (s : State) : Prop :=
  (∀ k r, .issued k r ∈ s.history ↔ ∃ op, s.ops[k]? = some op ∧ r = op.asIssued) ∧
    (∀ k a, (∃ removed, .performed k a removed ∈ s.history) ↔
      ∃ op, s.ops[k]? = some op ∧ a ∈ op.performed) ∧
    (∀ k, .completed k ∈ s.history ↔ s.opComplete k = true) ∧
    s.history.Nodup ∧
    ∀ k a r r', .performed k a r ∈ s.history → .performed k a r' ∈ s.history → r = r'

/-- Every operation waits only for accesses that there are, made by an agent at which it was performed, with a
translation that meets its requirements (R60). -/
def State.WaitsAreJustified (s : State) : Prop :=
  ∀ (k : Nat) (op : Op), s.ops[k]? = some op → ∀ j ∈ op.waits,
    ∃ m, s.inFlight[j]? = some m ∧ m.agent ∈ op.performed ∧ ∃ e ∈ m.uses, op.reqPred s m.agent e = true

/-- A PE executes next from `s`, in the state `u`: the schedule is empty and it is PE `self`, or it is the
first in the schedule and exists, and its move is taken from the schedule (assumption 7). -/
def State.MovesNext (s u : State) : Prop :=
  (s.schedule = [] ∧ u = s) ∨
    ∃ n rest, s.schedule = .pe n :: rest ∧ n < s.pes.length ∧ u = { s with schedule := rest, self := n }

/-- The two states differ in nothing but the TLBs and the schedule. -/
def State.SameApartFromTlbs (s t : State) : Prop :=
  t.cfg = s.cfg ∧ t.pes.length = s.pes.length ∧
    (∀ n, (t.peAt n).x = (s.peAt n).x ∧ (t.peAt n).pc = (s.peAt n).pc ∧ (t.peAt n).ctl = (s.peAt n).ctl ∧
      (t.peAt n).fault = (s.peAt n).fault) ∧
    t.smmus.length = s.smmus.length ∧ t.self = s.self ∧ t.inFlight = s.inFlight ∧ t.ops = s.ops ∧
    t.mem = s.mem ∧ t.history = s.history

/-- A state in which a run may start: any well-formed one with no operation issued (R45) and nothing noted
in the history. -/
abbrev State.Initial (s : State) : Prop := s.Wf ∧ s.ops = [] ∧ s.history = []

/-- `t` is reached from `s` by some number of steps. -/
inductive Reaches : State → State → Prop where
  | refl (s : State) : Reaches s s
  | step {s t u : State} : Reaches s t → Machine.step t = .next u → Reaches s u

end Sys2Proof.Machine
end

