-- ==== Sys2Proof/Certificates/Slice0/Obligations.lean ====
section
/-! DEFINITION. The statements for the provers. Each names the rules of spec/ it rests on; a clause that
rests on a decision of the spec or on a choice of this model says so. Where a statement speaks of one PE's
execution, `s.self` is the executing PE and `s.self < s.pes.length` says that it exists. -/

open Sys2Proof Sys2Proof.Machine

/-! ### Encoding and decoding -/

/-- Decode and encode agree: the bytes of every well-formed instruction, whatever follows them, decode to
that instruction and leave what follows. The positions of the fields are the spec's from general knowledge
(R74, assumption 12). -/
def Obligations.DecodeInvertsEncode : Prop :=
  ∀ (i : Instr) (rest : List Byte), i.wellFormed = true → decode (encodeBytes i ++ rest) = .instr i rest

/-- A word that decodes is the word of the instruction it decodes to, which is well formed, and of no other
well-formed instruction: no bit of the word is dropped. The positions of the fields are the spec's from
general knowledge (R74, assumption 12). -/
def Obligations.EncodeInvertsDecode : Prop :=
  ∀ (w : InstrWord) (i : Instr), decodeWord w = some i →
    i.wellFormed = true ∧ encode i = w ∧ ∀ j : Instr, j.wellFormed = true → encode j = w → j = i

/-- The decoder reads exactly the fields of R74, with the values of R71 and R72: bits [31:22], `L`, `op0`,
`op1`, `CRn`, `CRm`, `op2`, and the register number from bits [4:0] (layout: assumption 12). -/
def Obligations.DecoderReadsSelectingFields : Prop :=
  ∀ (w : InstrWord) (t : Nat),
    (decodeWord w = some (.tlbiRipas2le1os t) ↔
      w.extractLsb' 22 10 = 0b1101010100#10 ∧ w.extractLsb' 21 1 = 0#1 ∧ w.extractLsb' 19 2 = 0b01#2 ∧
        w.extractLsb' 16 3 = 0b100#3 ∧ w.extractLsb' 12 4 = 0b1000#4 ∧ w.extractLsb' 8 4 = 0b0100#4 ∧
        w.extractLsb' 5 3 = 0b111#3 ∧ t = (w.extractLsb' 0 5).toNat) ∧
    (decodeWord w = some (.tlbiRipas2le1osnxs t) ↔
      w.extractLsb' 22 10 = 0b1101010100#10 ∧ w.extractLsb' 21 1 = 0#1 ∧ w.extractLsb' 19 2 = 0b01#2 ∧
        w.extractLsb' 16 3 = 0b100#3 ∧ w.extractLsb' 12 4 = 0b1001#4 ∧ w.extractLsb' 8 4 = 0b0100#4 ∧
        w.extractLsb' 5 3 = 0b111#3 ∧ t = (w.extractLsb' 0 5).toNat)

/-- A few words of 95_test_vectors.md section 2.1, written out, and two of its decoder negatives (the third
verdict of R89). PRESUMED: the words follow the layout the spec takes from general knowledge (R74, decision
D2, assumption 12) and their bytes lie least significant first (R53, decision D6, assumption 16). -/
def Obligations.SampleWordsDecode : Prop :=
  decode [0xE0#8, 0x84#8, 0x0C#8, 0xD5#8] = .instr (.tlbiRipas2le1os 0) [] ∧
  decode [0xFF#8, 0x84#8, 0x0C#8, 0xD5#8] = .instr (.tlbiRipas2le1os 31) [] ∧
  decode [0xE3#8, 0x94#8, 0x0C#8, 0xD5#8] = .instr (.tlbiRipas2le1osnxs 3) [] ∧
  decode [0xC0#8, 0x84#8, 0x0C#8, 0xD5#8] = .notInSpec 0xD50C84C0#32 ∧
  decode [0xE0#8, 0x84#8, 0x2C#8, 0xD5#8] = .notInSpec 0xD52C84E0#32

/-- A word of neither instruction is refused as not in this spec; it is not `UNDEFINED` (R89), whether the PE
is next in the schedule or the schedule is empty (assumption 7). -/
def Obligations.UnknownWordIsRefusedNotUndefined : Prop :=
  ∀ (s u : State) (w : InstrWord), s.MovesNext u → u.pe.fault = none → u.pe.pc.toNat % 4 = 0 →
    Memory.readWord u.mem u.pe.pc = some (bytesOfWord w) → decodeWord w = none →
    step s = .refused (.notInSpec w)

/-! ### The operand -/

/-- The seven fields of R75 cover the 64 bits of the operand, each at its place. -/
def Obligations.OperandFieldsCoverTheWord : Prop :=
  ∀ v : Word,
    v.toNat = (operandNS v).toNat * 2 ^ 63 + (operandRes0 v).toNat * 2 ^ 48 + (operandTG v).toNat * 2 ^ 46 +
      (operandSCALE v).toNat * 2 ^ 44 + (operandNUM v).toNat * 2 ^ 39 + (operandTTL v).toNat * 2 ^ 37 +
      (operandBaseADDR v).toNat

/-- The granule (R76): which one each value of `TG` selects, and its bytes; 0b00 is reserved and selects none
("K" is 1024 by the spec's inference, assumption 26). The start address (R78): the field times 2^16 with
`FEAT_LPA2` and `DS_eff`, else times the granule's size. It is a multiple of the granule size, and it is below
the bounds R78 gives. -/
def Obligations.RangeStartIsGranuleAligned : Prop :=
  (granuleOfTG 0b00#2 = none ∧ granuleOfTG 0b01#2 = some .g4K ∧ granuleOfTG 0b10#2 = some .g16K ∧
    granuleOfTG 0b11#2 = some .g64K) ∧
  (Granule.g4K.bytes = 4096 ∧ Granule.g16K.bytes = 16384 ∧ Granule.g64K.bytes = 65536) ∧
  ∀ (cfg : Config) (ds : Bool) (g : Granule) (v : Word),
    rangeBase cfg ds g v =
      v.toNat % 2 ^ 37 * (if cfg.featLPA2 = true ∧ ds = true then 65536 else g.bytes) ∧
    g.bytes ∣ rangeBase cfg ds g v ∧ rangeBase cfg ds g v < 2 ^ 53 ∧
    (¬(cfg.featLPA2 = true ∧ ds = true) →
      (g = .g4K → rangeBase cfg ds g v < 2 ^ 49) ∧ (g = .g16K → rangeBase cfg ds g v < 2 ^ 51))

/-- The length of the range (R79): an even number of granules, at least 2 and at most 2^21, given by
`NUM` and `SCALE`; a range of one granule cannot be expressed. -/
def Obligations.RangeLengthInGranules : Prop :=
  ∀ (g : Granule) (v : Word), ∃ n,
    rangeLen g v = n * g.bytes ∧ Even n ∧ 2 ≤ n ∧ n ≤ 2 ^ 21 ∧
    (operandSCALE v = 0#2 → n = 2 * ((operandNUM v).toNat + 1)) ∧
    (operandSCALE v = 1#2 → n = 64 * ((operandNUM v).toNat + 1)) ∧
    (operandSCALE v = 2#2 → n = 2048 * ((operandNUM v).toNat + 1)) ∧
    (operandSCALE v = 3#2 → n = 65536 * ((operandNUM v).toNat + 1))

/-- The arithmetic of the range is exact (R80, the spec's decision D19, assumption 26): the end is the sum,
it is never below the start, its largest value is the one R80 gives, and an operand reaches it, beyond
2^53. -/
def Obligations.RangeEndIsExact : Prop :=
  (∀ (cfg : Config) (ds : Bool) (g : Granule) (v : Word),
    rangeEnd cfg ds g v = rangeBase cfg ds g v + rangeLen g v ∧
    rangeBase cfg ds g v < rangeEnd cfg ds g v ∧
    rangeEnd cfg ds g v ≤ (2 ^ 37 - 1) * 2 ^ 16 + 2 ^ 37) ∧
  ∃ v : Word, operandTG v = 0b11#2 ∧
    ∀ (cfg : Config) (ds : Bool), rangeEnd cfg ds .g64K v = (2 ^ 37 - 1) * 2 ^ 16 + 2 ^ 37 ∧
      2 ^ 53 < rangeEnd cfg ds .g64K v

/-- The level hint (R81): `0b00` any level, the others the level they name, but for the reserved `0b01`
with the 16KB granule and without `FEAT_LPA2`, where `TTL01_16K_POLICY` decides (the spec's decision D18,
assumption 25). -/
def Obligations.LevelHintTable : Prop :=
  ∀ (cfg : Config) (v : Word),
    (operandTTL v = 0b00#2 → ttlLevel cfg v = .any) ∧
    (operandTTL v = 0b01#2 → ¬(operandTG v = 0b10#2 ∧ cfg.featLPA2 = false) → ttlLevel cfg v = .l1) ∧
    (operandTTL v = 0b01#2 → operandTG v = 0b10#2 → cfg.featLPA2 = false →
      ttlLevel cfg v = if cfg.ttl01Policy = .as00 then .any else .l1) ∧
    (operandTTL v = 0b10#2 → ttlLevel cfg v = .l2) ∧
    (operandTTL v = 0b11#2 → ttlLevel cfg v = .l3)

/-- The IPA space of an operation of a faithful state, by feature, target Security state and bit 63 (R82),
and whether the bit is res0. The cases at EL3 with `FEAT_SEL2` and without either feature are the spec's
decisions D25 and D35 (assumptions 32 and 41). -/
def Obligations.IpaSpaceTable : Prop :=
  ∀ (cfg : Config) (n : Nat) (op : Op), op.Wf cfg n →
    (cfg.featRME = true →
      (op.ss = .secure → op.nsReading cfg =
        ⟨false, some (if operandNS op.operand then .nonSecureIPA else .secureIPA)⟩) ∧
      (op.ss = .realm → op.nsReading cfg = ⟨true, some .realmIPA⟩) ∧
      (op.ss = .nonSecure → op.nsReading cfg = ⟨true, some .nonSecureIPA⟩)) ∧
    (cfg.featRME = false → cfg.featSEL2 = true →
      (op.ss = .secure → op.nsReading cfg =
        ⟨false, some (if operandNS op.operand then .nonSecureIPA else .secureIPA)⟩) ∧
      (op.ss = .nonSecure → op.el = .el2 → op.nsReading cfg = ⟨true, some .nonSecureIPA⟩) ∧
      (op.ss = .nonSecure → op.el = .el3 → op.nsReading cfg =
        ⟨false, if operandNS op.operand then some .nonSecureIPA else none⟩)) ∧
    (cfg.featRME = false → cfg.featSEL2 = false →
      (op.ss = .nonSecure → op.nsReading cfg = ⟨true, some .nonSecureIPA⟩) ∧
      (op.ss = .secure → op.nsReading cfg = ⟨true, none⟩))

/-- Reserved operand bits (R84, the spec's decision D16, assumption 23): with `no_guarantee` a non-zero bit of
[62:48], or bit 63 where it is res0, leaves nothing required at any agent; with `ignore` neither bits [62:48]
nor bit 63 where it is res0 change what is required. -/
def Obligations.ReservedOperandBits : Prop :=
  (∀ (s : State) (op : Op) (a : Agent), s.cfg.res0Policy = .noGuarantee →
    (operandRes0 op.operand ≠ 0#15 ∨
      ((op.nsReading s.cfg).isRes0 = true ∧ operandNS op.operand = true)) →
    op.required s a = []) ∧
  (∀ (s : State) (op : Op) (a : Agent) (v : Word), s.cfg.res0Policy = .ignore →
    (operandNS v = operandNS op.operand ∨ (op.nsReading s.cfg).isRes0 = true) →
    v.toNat % 2 ^ 48 = op.operand.toNat % 2 ^ 48 →
    ({ op with operand := v } : Op).required s a = op.required s a)

/-- The table of unpredictable ranges (R105): the range is unpredictable exactly when `TG` and `TTL` are those
of a row and the bits of the start address that the row names are not all zero; so it never is with the
reserved granule, for which there is no row. -/
def Obligations.UnpredictableRangeTable : Prop :=
  ∀ (cfg : Config) (op : Op),
    (operandTG op.operand = 0b00#2 → op.unpredictable cfg = false) ∧
    (op.unpredictable cfg = true ↔
      (operandTG op.operand = 0b01#2 ∧ operandTTL op.operand = 0b01#2 ∧
        rangeBase cfg op.ds .g4K op.operand / 2 ^ 12 % 2 ^ 18 ≠ 0) ∨
      (operandTG op.operand = 0b01#2 ∧ operandTTL op.operand = 0b10#2 ∧
        rangeBase cfg op.ds .g4K op.operand / 2 ^ 12 % 2 ^ 9 ≠ 0) ∨
      (operandTG op.operand = 0b10#2 ∧ operandTTL op.operand = 0b10#2 ∧
        rangeBase cfg op.ds .g16K op.operand / 2 ^ 14 % 2 ^ 11 ≠ 0) ∨
      (operandTG op.operand = 0b11#2 ∧ operandTTL op.operand = 0b01#2 ∧
        rangeBase cfg op.ds .g64K op.operand / 2 ^ 16 % 2 ^ 26 ≠ 0) ∨
      (operandTG op.operand = 0b11#2 ∧ operandTTL op.operand = 0b10#2 ∧
        rangeBase cfg op.ds .g64K op.operand / 2 ^ 16 % 2 ^ 13 ≠ 0))

/-- The last column of the table of R105, which the spec marks as derived: with the `TG` and `TTL` of a row the
range is unpredictable exactly when the start address is no multiple of the row's power of two; and it never is
with `TTL` 0b00 or 0b11, with the 16K granule and 0b01, or with the reserved granule. -/
def Obligations.UnpredictableMeansMisalignedStart : Prop :=
  ∀ (cfg : Config) (op : Op),
    (operandTG op.operand = 0b01#2 → operandTTL op.operand = 0b01#2 →
      (op.unpredictable cfg = true ↔ ¬2 ^ 30 ∣ rangeBase cfg op.ds .g4K op.operand)) ∧
    (operandTG op.operand = 0b01#2 → operandTTL op.operand = 0b10#2 →
      (op.unpredictable cfg = true ↔ ¬2 ^ 21 ∣ rangeBase cfg op.ds .g4K op.operand)) ∧
    (operandTG op.operand = 0b10#2 → operandTTL op.operand = 0b10#2 →
      (op.unpredictable cfg = true ↔ ¬2 ^ 25 ∣ rangeBase cfg op.ds .g16K op.operand)) ∧
    (operandTG op.operand = 0b11#2 → operandTTL op.operand = 0b01#2 →
      (op.unpredictable cfg = true ↔ ¬2 ^ 42 ∣ rangeBase cfg op.ds .g64K op.operand)) ∧
    (operandTG op.operand = 0b11#2 → operandTTL op.operand = 0b10#2 →
      (op.unpredictable cfg = true ↔ ¬2 ^ 29 ∣ rangeBase cfg op.ds .g64K op.operand)) ∧
    (operandTG op.operand = 0b00#2 ∨ operandTTL op.operand = 0b00#2 ∨ operandTTL op.operand = 0b11#2 ∨
        (operandTG op.operand = 0b10#2 ∧ operandTTL op.operand = 0b01#2) → op.unpredictable cfg = false)

/-! ### The required set -/

/-- Nothing is required of an operation that guarantees nothing, at any agent: the granule is reserved (R104),
the range is unpredictable (R106), no IPA space is named (R82), or under `no_guarantee` a bit of [62:48], or
bit 63 where it is res0, is not zero (R84). Such an operation is performed like any other, and its perform
step may remove any part `K` of the TLB. These are the spec's decisions D16, D17, D21, D25 and D35
(assumptions 23, 24, 28, 32 and 41). -/
def Obligations.NothingRequiredWithoutGuarantee : Prop :=
  ∀ (s : State) (k : Nat) (op : Op) (a : Agent), s.ops[k]? = some op →
    (operandTG op.operand = 0b00#2 ∨ op.unpredictable s.cfg = true ∨ (op.nsReading s.cfg).space = none ∨
      (s.cfg.res0Policy = .noGuarantee ∧ (operandRes0 op.operand ≠ 0#15 ∨
        ((op.nsReading s.cfg).isRes0 = true ∧ operandNS op.operand = true)))) →
    op.required s a = [] ∧
    (a ∈ op.scope → a ∉ op.performed → ∀ K : List TlbEntry, ∃ t,
      step { s with schedule := [.perform k a K] } = .next t ∧
      t.tlb a = (s.tlb a).filter (fun e => decide (e ∉ K)) ∧
      ∃ op', t.ops[k]? = some op' ∧ op'.performed = op.performed ++ [a])

/-- `ReqPred` as the page's list of requirements in arithmetic (R97): an entry is required exactly when the
operation guarantees something and the entry is a leaf entry of stage 2 only and of the hinted level, of the
regime, Security state, IPA space, VMID and granule, lies in the range, and the agent clause holds. Of the
reserved operand bits `no_guarantee` wants that bits [62:48], and bit 63 where it is res0, are zero, and
`ignore` wants nothing (R84, decision D16, assumption 23). To lie in the range is to be contained in it, or to
overlap it, as `RANGE_MATCH` says (R102, the spec's decision D20, assumption 27). -/
def Obligations.RequiredEntryMeetsEveryRequirement : Prop :=
  ∀ (s : State) (op : Op) (a : Agent) (e : TlbEntry),
    (e ∈ op.required s a ↔
      e ∈ s.tlb a ∧ ∃ g, granuleOfTG (operandTG op.operand) = some g ∧
        (s.cfg.res0Policy = .noGuarantee → operandRes0 op.operand = 0#15 ∧
          ((op.nsReading s.cfg).isRes0 = true → operandNS op.operand = false)) ∧
        op.unpredictable s.cfg = false ∧
        e.kind = .s2Only ∧ e.leaf = true ∧
        ((e.fmt = .d64 ∧
            (ttlLevel s.cfg op.operand = .any ∨ (ttlLevel s.cfg op.operand = .l1 ∧ e.level = 1) ∨
              (ttlLevel s.cfg op.operand = .l2 ∧ e.level = 2) ∨
              (ttlLevel s.cfg op.operand = .l3 ∧ e.level = 3))) ∨
          (s.cfg.featD128 = true ∧ e.fmt = .d128 ∧ operandTTL op.operand = 0b00#2)) ∧
        e.regime = .el10 ∧ e.ss = op.ss ∧ (op.nsReading s.cfg).space = some e.ipaSpace ∧
        e.vmid = op.vmid ∧ e.granule = g ∧
        (s.cfg.rangeMatch = .within →
          rangeBase s.cfg op.ds g op.operand ≤ e.ipaBase ∧
          e.ipaBase + e.size ≤ rangeBase s.cfg op.ds g op.operand + rangeLen g op.operand) ∧
        (s.cfg.rangeMatch = .overlap →
          e.ipaBase < rangeBase s.cfg op.ds g op.operand + rangeLen g op.operand ∧
          rangeBase s.cfg op.ds g op.operand < e.ipaBase + e.size) ∧
        op.agentOK s a e = true)

/-- A required entry is of the EL1&0 regime of the operation's Security state (R95), tagged with the
operation's VMID (R101), and of the granule the operand names (R103); an entry that differs in one of them
is never required. That the VMID is the one current at the issue is in the two issue statements below. -/
def Obligations.RequiredEntryMatchesTheOperation : Prop :=
  ∀ (s : State) (op : Op) (a : Agent) (e : TlbEntry),
    (e.regime = .other ∨ e.ss ≠ op.ss ∨ e.vmid ≠ op.vmid ∨
      granuleOfTG (operandTG op.operand) ≠ some e.granule) →
    e ∉ op.required s a

/-- Which kinds of entry qualify (R99, with the 128-bit clause of R100): a leaf entry of stage 2 only, 64-bit
and of the hinted level, or 128-bit with `FEAT_D128` and `TTL` 0b00. With `TTL` 0b00 a 64-bit leaf entry of
any level qualifies. -/
def Obligations.KindOfRequiredEntry : Prop :=
  ∀ (cfg : Config) (op : Op) (e : TlbEntry),
    (op.kindOK cfg e = true ↔
      e.kind = .s2Only ∧ e.leaf = true ∧
        ((e.fmt = .d64 ∧
            (ttlLevel cfg op.operand = .any ∨ (ttlLevel cfg op.operand = .l1 ∧ e.level = 1) ∨
              (ttlLevel cfg op.operand = .l2 ∧ e.level = 2) ∨
              (ttlLevel cfg op.operand = .l3 ∧ e.level = 3))) ∨
          (cfg.featD128 = true ∧ e.fmt = .d128 ∧ operandTTL op.operand = 0b00#2))) ∧
    (operandTTL op.operand = 0b00#2 → e.kind = .s2Only → e.leaf = true → e.fmt = .d64 →
      op.kindOK cfg e = true)

/-- An entry that is not stage 2 only (R65), or not from the leaf level (R107), is never required; the
operation may remove it all the same, or leave it. -/
def Obligations.OtherEntriesMayGoButNeedNot : Prop :=
  ∀ (s : State) (k : Nat) (op : Op) (a : Agent) (e : TlbEntry), s.ops[k]? = some op →
    (e.kind = .s1s2Combined ∨ e.kind = .s1Only ∨ e.leaf = false) →
    e ∉ op.required s a ∧
    (a ∈ op.scope → a ∉ op.performed → e ∈ s.tlb a →
      (∃ t, step { s with schedule := [.perform k a [e]] } = .next t ∧ e ∉ t.tlb a) ∧
      ∃ t, step { s with schedule := [.perform k a []] } = .next t ∧ e ∈ t.tlb a)

/-- The agent clause (R64, R108, the spec's decisions D33 and D34, assumptions 39 and 40): always for the
issuer; for another PE unless the regime is Secure and its `SCR_EL3.EEL2` (the configuration's constant without
EL3, decision D12, assumption 19) differs from the issuer's; for a
System MMU, in the Secure regime only with VMID 0 on both sides, else by `SMMU_IN_SCOPE`. -/
def Obligations.AgentClause : Prop :=
  ∀ (s : State) (op : Op) (e : TlbEntry) (n : Nat),
    op.agentOK s (.pe op.issuer) e = true ∧
    (op.ss ≠ .secure → op.agentOK s (.pe n) e = true) ∧
    (op.ss = .secure → n ≠ op.issuer →
      (op.agentOK s (.pe n) e = true ↔
        (if s.cfg.haveEL3 then (s.peAt n).ctl.scr.eel2 else s.cfg.scrEff.eel2) = op.eel2)) ∧
    (op.ss = .secure → (op.agentOK s (.smmu n) e = true ↔ op.vmid = 0 ∧ e.vmid = 0)) ∧
    (op.ss ≠ .secure → (op.agentOK s (.smmu n) e = true ↔ s.cfg.smmuInScope = true))

/-- The spec's own choice of the policies promises least (R81, R102; decisions D16, D18, D20, D34): an entry
they require is required under every other choice. -/
def Obligations.DefaultPoliciesPromiseLeast : Prop :=
  ∀ (s : State) (op : Op) (a : Agent) (e : TlbEntry) (r : Res0Policy) (t : Ttl01Policy) (m : RangeMatch)
    (u : Bool),
    0 < e.size →
    op.reqPred { s with cfg := { s.cfg with
      res0Policy := .noGuarantee, ttl01Policy := .literalLevel1, rangeMatch := .within,
      smmuInScope := false } } a e = true →
    op.reqPred { s with cfg := { s.cfg with
      res0Policy := r, ttl01Policy := t, rangeMatch := m, smmuInScope := u } } a e = true

/-- "Both variants perform the same invalidation" (R59): what is required at an agent, and which accesses a
perform step waits for, do not depend on `attr`; and where both are implemented the two instructions, run
from one state, issue records that differ in `attr` alone and leave states that differ in nothing else. -/
def Obligations.BothVariantsInvalidateTheSame : Prop :=
  (∀ (s : State) (op : Op) (attr : TlbiAttr) (a : Agent),
    ({ op with attr := attr } : Op).required s a = op.required s a ∧
    ({ op with attr := attr } : Op).newWaits s a = op.newWaits s a) ∧
  ∀ (s : State) (rt : Nat) (t : State), s.cfg.featXS = true →
    exec (.tlbiRipas2le1os rt) s = .next t →
    (exec (.tlbiRipas2le1osnxs rt) s = .next t ∧ t.ops = s.ops) ∨
    ∃ op, op.attr = .allAttr ∧ t.ops = s.ops ++ [op] ∧
      exec (.tlbiRipas2le1osnxs rt) s =
        .next { t with ops := s.ops ++ [{ op with attr := .excludeXS }] }

/-! ### What an execution does -/

/-- `TLBI RIPAS2LE1OS` completes at EL2, and at EL3 with EL2 enabled (R92, R94, R112, R113): it adds the
record of R40, with every field sampled, moves the `pc` by 4, and changes nothing else. Register number 31
reads as zero (assumption 13); `ds` is the bit `DS_SOURCE` names (R30, decision D15, assumption 22), and
without EL3 `eel2` is the configuration's constant (decision D12, assumption 19). -/
def Obligations.Ripas2le1osIssues : Prop :=
  ∀ (s : State) (rt : Nat) (ss : SecurityState), rt < 32 → s.self < s.pes.length →
    s.cfg.featTLBIRANGE = true → s.cfg.featTLBIOS = true →
    (s.pe.ctl.el = .el2 ∨ (s.pe.ctl.el = .el3 ∧ el2Enabled s.cfg s.pe.ctl = true)) →
    targetSS s.cfg s.pe.ctl = some ss → s.pe.pc.toNat + 4 < 2 ^ 64 →
    exec (.tlbiRipas2le1os rt) s = .next { s with
      pes := s.pes.set s.self { s.pe with pc := s.pe.pc + 4#64 }
      ops := s.ops ++ [{
        issuer := s.self
        attr := .allAttr
        ss := ss
        vmid := s.pe.ctl.vmid
        operand := if h : rt < 31 then s.pe.x[rt] else 0#64
        ds := if s.cfg.dsSource = .tcrEL1 then s.pe.ctl.tcrDS else s.pe.ctl.vtcrDS
        eel2 := if s.cfg.haveEL3 then s.pe.ctl.scr.eel2 else s.cfg.scrEff.eel2
        el := s.pe.ctl.el
        scope := oshDomain s.cfg s.self
        performed := []
        waits := [] }] }

/-- `TLBI RIPAS2LE1OSNXS` completes at EL2, and at EL3 with EL2 enabled, where `FEAT_XS` is implemented
(R93, R94, R112, R113): the same with `ExcludeXS`. -/
def Obligations.Ripas2le1osnxsIssues : Prop :=
  ∀ (s : State) (rt : Nat) (ss : SecurityState), rt < 32 → s.self < s.pes.length →
    s.cfg.featTLBIRANGE = true → s.cfg.featTLBIOS = true → s.cfg.featXS = true →
    (s.pe.ctl.el = .el2 ∨ (s.pe.ctl.el = .el3 ∧ el2Enabled s.cfg s.pe.ctl = true)) →
    targetSS s.cfg s.pe.ctl = some ss → s.pe.pc.toNat + 4 < 2 ^ 64 →
    exec (.tlbiRipas2le1osnxs rt) s = .next { s with
      pes := s.pes.set s.self { s.pe with pc := s.pe.pc + 4#64 }
      ops := s.ops ++ [{
        issuer := s.self
        attr := .excludeXS
        ss := ss
        vmid := s.pe.ctl.vmid
        operand := if h : rt < 31 then s.pe.x[rt] else 0#64
        ds := if s.cfg.dsSource = .tcrEL1 then s.pe.ctl.tcrDS else s.pe.ctl.vtcrDS
        eel2 := if s.cfg.haveEL3 then s.pe.ctl.scr.eel2 else s.cfg.scrEff.eel2
        el := s.pe.ctl.el
        scope := oshDomain s.cfg s.self
        performed := []
        waits := [] }] }

/-- `return;` at EL3 with EL2 not enabled (R18, R113): either instruction advances the `pc` and changes
nothing else. That the advance is by 4 is the spec's decision D5 (assumption 15). -/
def Obligations.ReturnAtEL3OnlyAdvancesPc : Prop :=
  ∀ (i : Instr) (s : State), implemented s.cfg i = true → s.pe.ctl.el = .el3 →
    el2Enabled s.cfg s.pe.ctl = false → s.pe.pc.toNat + 4 < 2 ^ 64 →
    exec i s = .next { s with pes := s.pes.set s.self { s.pe with pc := s.pe.pc + 4#64 } }

/-- EL1 (R111): the trap to EL2 with 0x18 when EL2 is enabled and `HCR_EL2.NV` is 1, else `UNDEFINED`; no
next state at all, so neither instruction invalidates at EL1. On an implementation without the bit it is 0
(R29, the spec's decision D31, assumption 37). -/
def Obligations.El1TrapsOrIsUndefined : Prop :=
  ∀ (i : Instr) (s : State), implemented s.cfg i = true → s.pe.ctl.el = .el1 →
    (el2Enabled s.cfg s.pe.ctl = true ∧ (s.cfg.haveNV = true ∧ s.pe.ctl.nv = true) →
      exec i s = .fault (.systemAccessTrap .el2 0x18 s.self (encode i) s.pe.pc)) ∧
    (¬(el2Enabled s.cfg s.pe.ctl = true ∧ (s.cfg.haveNV = true ∧ s.pe.ctl.nv = true)) →
      exec i s = .fault (.undefined s.self (encode i) s.pe.pc))

/-- Illegal encodings (R83): both are `UNDEFINED` at every Exception level without `FEAT_TLBIRANGE` or
`FEAT_TLBIOS`, the nXS variant also without `FEAT_XS`; at EL0 both always are; at EL1 they are `UNDEFINED`
or trapped. `implemented`, which other statements have as a hypothesis, says that none of these features is
missing (R91). -/
def Obligations.IllegalEncodingsAreUndefined : Prop :=
  ∀ (s : State) (rt : Nat),
    (s.cfg.featTLBIRANGE = false ∨ s.cfg.featTLBIOS = false →
      exec (.tlbiRipas2le1os rt) s = .fault (.undefined s.self (encode (.tlbiRipas2le1os rt)) s.pe.pc) ∧
      exec (.tlbiRipas2le1osnxs rt) s =
        .fault (.undefined s.self (encode (.tlbiRipas2le1osnxs rt)) s.pe.pc)) ∧
    (s.cfg.featXS = false → exec (.tlbiRipas2le1osnxs rt) s =
      .fault (.undefined s.self (encode (.tlbiRipas2le1osnxs rt)) s.pe.pc)) ∧
    (implemented s.cfg (.tlbiRipas2le1os rt) = true ↔
      s.cfg.featTLBIRANGE = true ∧ s.cfg.featTLBIOS = true) ∧
    (implemented s.cfg (.tlbiRipas2le1osnxs rt) = true ↔
      s.cfg.featTLBIRANGE = true ∧ s.cfg.featTLBIOS = true ∧ s.cfg.featXS = true) ∧
    (s.pe.ctl.el = .el0 → ∀ i : Instr, exec i s = .fault (.undefined s.self (encode i) s.pe.pc)) ∧
    (s.pe.ctl.el = .el1 → ∀ i : Instr, exec i s = .fault (.undefined s.self (encode i) s.pe.pc) ∨
      exec i s = .fault (.systemAccessTrap .el2 0x18 s.self (encode i) s.pe.pc))

/-- An instruction raises no exception but the two of the spec, and whether and which it raises depends on
the features, the Exception level and the control fields alone: not on the operand, the TLBs, the accesses
in flight or the operations issued (R130, which the spec marks as derived). -/
def Obligations.ExceptionsDoNotDependOnTheOperand : Prop :=
  (∀ (i : Instr) (s : State) (f : Fault), exec i s = .fault f →
    f = .undefined s.self (encode i) s.pe.pc ∨
    f = .systemAccessTrap .el2 0x18 s.self (encode i) s.pe.pc) ∧
  ∀ (i : Instr) (s s' : State) (f : Fault), s.cfg = s'.cfg → s.self = s'.self → s.pe.ctl = s'.pe.ctl →
    s.pe.pc = s'.pe.pc → (exec i s = .fault f ↔ exec i s' = .fault f)

/-- Where an execution is refused, and only there: the target Security state has no value on a path that
reaches the issue (R33, decision D13, assumption 20), or `pc + 4` wraps (R23, decision D5, assumption 15). -/
def Obligations.ExecutionRefusedOnlyWhereTheSpecRefuses : Prop :=
  ∀ (i : Instr) (s : State), implemented s.cfg i = true →
    let issuing := s.pe.ctl.el = .el2 ∨ (s.pe.ctl.el = .el3 ∧ el2Enabled s.cfg s.pe.ctl = true)
    let scr := if s.cfg.haveEL3 then s.pe.ctl.scr else s.cfg.scrEff
    let noTarget := s.cfg.featRME = true ∧ scr.nse = true ∧ scr.ns = false
    (exec i s = .refused .noTargetSecurityState ↔ issuing ∧ noTarget) ∧
    (exec i s = .refused (.pcWrap s.pe.pc) ↔
      2 ^ 64 ≤ s.pe.pc.toNat + 4 ∧
        ((issuing ∧ ¬noTarget) ∨ (s.pe.ctl.el = .el3 ∧ el2Enabled s.cfg s.pe.ctl = false))) ∧
    ∀ r, exec i s = .refused r → r = .noTargetSecurityState ∨ r = .pcWrap s.pe.pc

/-- The frame of both instructions (R114, R42, R43, R52, which the spec marks as derived): when one of them
answers a next state, only the executing PE's `pc` and `Ops` differ; `Ops` keeps every record it had. No
general register, control field, TLB, access, byte of memory or other PE changes. -/
def Obligations.InstructionWritesOnlyPcAndOps : Prop :=
  ∀ (i : Instr) (s t : State), exec i s = .next t →
    (t.ops = s.ops ∨ ∃ op, t.ops = s.ops ++ [op]) ∧
    t.pes.length = s.pes.length ∧
    (∀ n, (t.peAt n).x = (s.peAt n).x ∧ (t.peAt n).ctl = (s.peAt n).ctl ∧
      (t.peAt n).fault = (s.peAt n).fault ∧ (n ≠ s.self → t.peAt n = s.peAt n)) ∧
    (s.self < s.pes.length → (t.peAt s.self).pc = (s.peAt s.self).pc + 4#64) ∧
    (∀ a, t.tlb a = s.tlb a) ∧ t.smmus = s.smmus ∧ t.inFlight = s.inFlight ∧ t.cfg = s.cfg ∧
    t.self = s.self ∧ t.schedule = s.schedule ∧ t.history = s.history ∧
    ∀ addr, Memory.read t.mem addr = Memory.read s.mem addr

/-- The zero register as operand (R73, R116; register 31 reads as zero by decision D3, assumption 13): where
an instruction with `Rt` 31 answers a next state, whatever it issued has operand 0 and requires nothing of
any TLB. -/
def Obligations.ZeroRegisterPromisesNothing : Prop :=
  ∀ (i : Instr) (s t : State), i.rt = 31 → exec i s = .next t →
    t.ops = s.ops ∨ ∃ op, t.ops = s.ops ++ [op] ∧ op.operand = 0#64 ∧
      ∀ (u : State) (a : Agent), op.required u a = []

/-- Without EL2 an execution at a legal Exception level, any but EL2, never issues an operation (R138). -/
def Obligations.NoInvalidationWithoutEL2 : Prop :=
  ∀ (i : Instr) (s t : State), s.cfg.haveEL2 = false → s.pe.ctl.el ≠ .el2 →
    exec i s = .next t → t.ops = s.ops

/-- `EL2Enabled()` (R32): false without EL2, true at EL2 of an implementation that has it, and otherwise
open: for every list of control states there is a configuration that differs in this parameter alone and
has EL2 enabled below EL2 and at EL3 in exactly those (decision D11, assumption 18). That the states are compared
as stored, and not as the fields are read elsewhere without EL3 or without `FEAT_RME`, is the model's choice
(assumption 18, DESIGN CHOICE). -/
def Obligations.El2EnabledIsConstrainedAndOpen : Prop :=
  (∀ (cfg : Config) (c : Controls), cfg.haveEL2 = false → el2Enabled cfg c = false) ∧
  (∀ (cfg : Config) (c : Controls), cfg.haveEL2 = true → c.el = .el2 → el2Enabled cfg c = true) ∧
  ∀ (cfg : Config) (l : List Controls), cfg.haveEL2 = true →
    ∃ rule, ∀ c : Controls, c.el ≠ .el2 →
      (el2Enabled { cfg with el2Rule := rule } c = true ↔ c ∈ l)

/-- `TargetSS` (R33): the table, where the fields are read from `SCR_EL3`, or from the configuration's
constants on a PE without EL3 (decision D12, assumption 19). -/
def Obligations.TargetSecurityStateTable : Prop :=
  ∀ (cfg : Config) (c : Controls),
    let scr := if cfg.haveEL3 then c.scr else cfg.scrEff
    (cfg.featRME = true → scr.nse = false → scr.ns = false → targetSS cfg c = some .secure) ∧
    (cfg.featRME = true → scr.nse = false → scr.ns = true → targetSS cfg c = some .nonSecure) ∧
    (cfg.featRME = true → scr.nse = true → scr.ns = true → targetSS cfg c = some .realm) ∧
    (cfg.featRME = true → scr.nse = true → scr.ns = false → targetSS cfg c = none) ∧
    (cfg.featRME = false → scr.ns = false → targetSS cfg c = some .secure) ∧
    (cfg.featRME = false → scr.ns = true → targetSS cfg c = some .nonSecure)

/-! ### The step -/

/-- A step runs the decoded instruction: where PE `n` is to move (it is next in the schedule, or the schedule
is empty and it is `self`), has not faulted, and the bytes at its aligned `pc` decode to a well-formed
instruction `i`, the step is `exec i` at that state, with the move taken from the schedule. A next state is
noted in the history, with nothing else changed, a fault is recorded in the PE, a refusal stops the machine
(assumptions 7, 9 and 43). The fetch itself adds no access to `InFlight` (the model's choice, assumption 48). -/
def Obligations.StepRunsTheDecodedInstruction : Prop :=
  ∀ (s u : State) (i : Instr) (bytes : List Byte),
    s.MovesNext u → u.pe.fault = none → u.pe.pc.toNat % 4 = 0 → Memory.readWord u.mem u.pe.pc = some bytes →
    decode bytes = .instr i [] → i.wellFormed = true →
    (∀ t, exec i u = .next t → step s = .next (State.noted u t) ∧
      ∃ lines, State.noted u t = { t with history := t.history ++ lines }) ∧
    (∀ f, exec i u = .fault f → step s = .next (u.recordFault f)) ∧
    ∀ r, exec i u = .refused r → step s = .refused r

/-- A word placed with `withFetchWord` is what the very next step runs (assumption 11); its fetch adds no
access to `InFlight` (the model's choice, assumption 48). -/
def Obligations.PlacedWordIsRunNext : Prop :=
  ∀ (s : State) (i : Instr), i.wellFormed = true → s.self < s.pes.length → s.pe.pc.toNat % 4 = 0 →
    ∃ u : State, u.self = s.self ∧ u.cfg = s.cfg ∧ u.ops = s.ops ∧ u.inFlight = s.inFlight ∧
      u.schedule = s.schedule ∧ u.pe = { s.pe with fault := none } ∧ (∀ a, u.tlb a = s.tlb a) ∧
      (∀ t, exec i u = .next t →
        step (s.withFetchWord 32 (encode i).toNat) = .next (State.noted u t)) ∧
      (∀ f, exec i u = .fault f →
        step (s.withFetchWord 32 (encode i).toNat) = .next (u.recordFault f)) ∧
      ∀ r, exec i u = .refused r → step (s.withFetchWord 32 (encode i).toNat) = .refused r

/-- A placed word lies little-endian at the `pc` (R53, general knowledge, assumption 16): the byte at `pc`
holds bits [7:0]. Every other byte of the program text reads as before, and the text keeps its canonical
form. -/
def Obligations.PlacedWordIsLittleEndian : Prop :=
  ∀ (s : State) (w : InstrWord),
    let t := s.withFetchWord 32 w.toNat
    (∀ j < 4, byteAddr s.pe.pc j = (s.pe.pc.toNat + j) % 2 ^ 64) ∧
    (∀ j < 4, Memory.read t.mem (byteAddr s.pe.pc j) = some (w.extractLsb' (8 * j) 8)) ∧
    (∀ addr, (∀ j < 4, addr ≠ byteAddr s.pe.pc j) → Memory.read t.mem addr = Memory.read s.mem addr) ∧
    (Memory.wf s.mem = true → Memory.wf t.mem = true)

/-- A fetch at a `pc` that is no multiple of 4 is refused (R23, decision D7, assumption 15), whether the PE is
next in the schedule or the schedule is empty (assumption 7). -/
def Obligations.MisalignedFetchIsRefused : Prop :=
  ∀ s u : State, s.MovesNext u → u.pe.fault = none → u.pe.pc.toNat % 4 ≠ 0 →
    step s = .refused (.pcMisaligned u.pe.pc)

/-- A fault is precise (R135, R142, decision D30, assumption 36): the step records it in the PE that raised it
and changes nothing else; no register, `pc`, control field, TLB, operation, access or byte of memory. Here `u`
is the state in which the PE executes: `s`, with its move taken from the schedule (assumption 7). That the
step's fetch adds no access either is the model's choice (assumption 48). -/
def Obligations.FaultChangesNothingElse : Prop :=
  ∀ (s u : State) (f : Fault), s.MovesNext u → u.self < u.pes.length → u.pe.fault = none →
    executeOne u = .fault f →
    ∃ t, step s = .next t ∧ (t.peAt u.self).fault = some f ∧
      (∀ n, (t.peAt n).x = (s.peAt n).x ∧ (t.peAt n).pc = (s.peAt n).pc ∧
        (t.peAt n).ctl = (s.peAt n).ctl ∧ (t.peAt n).tlb = (s.peAt n).tlb) ∧
      (∀ n, n ≠ u.self → t.peAt n = s.peAt n) ∧ t.pes.length = s.pes.length ∧
      t.self = u.self ∧ t.schedule = u.schedule ∧
      t.smmus = s.smmus ∧ t.ops = s.ops ∧ t.inFlight = s.inFlight ∧ t.cfg = s.cfg ∧
      t.history = s.history ∧ ∀ addr, Memory.read t.mem addr = Memory.read s.mem addr

/-- A recorded fault is final for its PE (R135: "no later step clears the fault"): every step keeps it, and
the PE takes no further step: where it is next, by the schedule or because the schedule is empty, the step is
that fault again (assumptions 7 and 9). -/
def Obligations.FaultIsNeverCleared : Prop :=
  (∀ (s t : State) (n : Nat) (f : Fault), step s = .next t → (s.peAt n).fault = some f →
    (t.peAt n).fault = some f ∧ (t.peAt n).pc = (s.peAt n).pc) ∧
  ∀ (s u : State) (f : Fault), s.MovesNext u → u.pe.fault = some f → step s = .fault f

/-- The operation agents and the environment always move, whatever faults the PEs have recorded (R142:
operations already issued are still performed and completed). -/
def Obligations.AgentMovesNeverStop : Prop :=
  ∀ (s : State) (ev : Event) (rest : List Event), s.schedule = ev :: rest → (∀ n, ev ≠ .pe n) →
    ∃ t, step s = .next t ∧ t.schedule = rest

/-- The configuration and the program text do not change during a run (R46, R67: the spec's decisions D32
and D24; the model carries both in the state, assumptions 1 and 10). -/
def Obligations.StepKeepsConfigurationAndProgram : Prop :=
  ∀ s t : State, step s = .next t →
    t.cfg = s.cfg ∧ ∀ addr, Memory.read t.mem addr = Memory.read s.mem addr

/-- `PSTATE.EL` is read and never written (R24); nor does any step write a control field or a general
register of any PE (R22, R43). -/
def Obligations.StepKeepsExceptionLevels : Prop :=
  ∀ s t : State, step s = .next t →
    t.pes.length = s.pes.length ∧
    ∀ n, (t.peAt n).ctl.el = (s.peAt n).ctl.el ∧ (t.peAt n).ctl = (s.peAt n).ctl ∧
      (t.peAt n).x = (s.peAt n).x

/-- A PE's `pc` moves only by its own execution, by 4 and without wrap (R23, decision D5, assumption 15). -/
def Obligations.PcMovesOnlyByOwnExecution : Prop :=
  ∀ (s t : State) (n : Nat), step s = .next t →
    (t.peAt n).pc = (s.peAt n).pc ∨
    (n = t.self ∧ (t.peAt n).pc.toNat = (s.peAt n).pc.toNat + 4 ∧ (s.schedule = [] ∨
      ∃ rest, s.schedule = .pe n :: rest))

/-- The executing PE does not invalidate (R62, R90, decision D1): a step in which a PE moves changes no
TLB, not even its own, and no operation already issued. It also leaves `InFlight` as it was: that is the model's
choice, since R67 leaves open whether the fetch of such a step is recorded there (assumption 48, DESIGN
CHOICE). -/
def Obligations.ExecutionTouchesNoTlb : Prop :=
  ∀ s t : State, (s.schedule = [] ∨ ∃ n rest, s.schedule = .pe n :: rest) → step s = .next t →
    (∀ a, t.tlb a = s.tlb a) ∧ t.inFlight = s.inFlight ∧ ∃ new, t.ops = s.ops ++ new

/-- What an issue samples stays as sampled (R40): every step keeps every record's issuer, attribute,
Security state, VMID, operand, `ds`, `eel2`, `el` and scope; its performed agents and waited accesses are
only added to. -/
def Obligations.StepKeepsIssuedRecords : Prop :=
  ∀ (s t : State) (k : Nat) (op : Op), step s = .next t → s.ops[k]? = some op →
    ∃ op', t.ops[k]? = some op' ∧ op'.asIssued = op.asIssued ∧
      (∃ l, op'.performed = op.performed ++ l) ∧ ∃ l, op'.waits = op.waits ++ l

/-- The life of an access (R39). It begins by a move of the environment: for an agent of the machine that used
well-formed entries it is added, not complete, and otherwise nothing is (the guard is the model's, assumption
30; `EnvironmentMayDropAndFill` writes it out). It completes by the move that names it. A step keeps
every access with its agent, its copies of entries and its XS attribute, and an access never goes back from
complete. -/
def Obligations.CompletedAccessStaysComplete : Prop :=
  (∀ (s t : State) (i : Nat) (m : Access), step s = .next t → s.inFlight[i]? = some m →
    ∃ m', t.inFlight[i]? = some m' ∧ m'.agent = m.agent ∧ m'.uses = m.uses ∧ m'.xs = m.xs ∧
      (m.complete = true → m'.complete = true) ∧
      (m'.complete ≠ m.complete → ∃ rest, s.schedule = .completeAccess i :: rest)) ∧
  (∀ (s : State) (i : Nat) (m : Access) (rest : List Event), s.inFlight[i]? = some m →
    ∃ t, step { s with schedule := .completeAccess i :: rest } = .next t ∧
      t.inFlight[i]? = some { m with complete := true } ∧ t.inFlight.length = s.inFlight.length ∧
      (∀ j, j ≠ i → t.inFlight[j]? = s.inFlight[j]?) ∧ t.pes = s.pes ∧ t.smmus = s.smmus ∧
      t.ops = s.ops ∧ t.schedule = rest) ∧
  ∀ (s : State) (m : Access) (rest : List Event),
    ∃ t, step { s with schedule := .beginAccess m :: rest } = .next t ∧
      (s.hasAgent m.agent = true → (∀ e ∈ m.uses, e.wf s.cfg = true) →
        t.inFlight = s.inFlight ++ [{ m with complete := false }]) ∧
      (s.hasAgent m.agent = false ∨ (∃ e ∈ m.uses, e.wf s.cfg = false) → t.inFlight = s.inFlight) ∧
      t.pes = s.pes ∧ t.smmus = s.smmus ∧ t.ops = s.ops ∧ t.schedule = rest

/-! ### Performing and completing an operation -/

/-- The promise of the perform step (R60, R98, decision D22, assumption 29): after an operation is performed
at an agent of its scope no required entry is left there and nothing was added; and every `K` between the
required set and the TLB is what some choice of the operation agent removes. No other TLB changes. -/
def Obligations.PerformRemovesRequiredEntries : Prop :=
  ∀ (s : State) (k : Nat) (op : Op) (a : Agent) (rest : List Event), s.ops[k]? = some op →
    a ∈ op.scope → a ∉ op.performed →
    (∀ extra, ∃ t, step { s with schedule := .perform k a extra :: rest } = .next t ∧
      (∀ e ∈ t.tlb a, e ∈ s.tlb a ∧ e ∉ op.required s a) ∧ ∀ b, b ≠ a → t.tlb b = s.tlb b) ∧
    ∀ K : List TlbEntry, (∀ e ∈ op.required s a, e ∈ K) → (∀ e ∈ K, e ∈ s.tlb a) →
      ∃ extra t, step { s with schedule := .perform k a extra :: rest } = .next t ∧
        ∀ e, e ∈ t.tlb a ↔ e ∈ s.tlb a ∧ e ∉ K

/-- What the perform step waits for (R60; the reading of "in-scope old translation information" is the
spec's decision D24, assumption 31): exactly the incomplete accesses of that agent that used a translation
meeting the requirements are added to `waits`; the agent is added to `performed`; no other operation
changes. -/
def Obligations.PerformWaitsForAccessesInUse : Prop :=
  ∀ (s : State) (k : Nat) (op : Op) (a : Agent) (extra : List TlbEntry) (rest : List Event),
    s.ops[k]? = some op → a ∈ op.scope → a ∉ op.performed →
    ∃ t op', step { s with schedule := .perform k a extra :: rest } = .next t ∧
      t.ops[k]? = some op' ∧ op'.performed = op.performed ++ [a] ∧
      (∀ i, i ∈ op'.waits ↔ i ∈ op.waits ∨ ∃ m, s.inFlight[i]? = some m ∧ m.agent = a ∧
        m.complete = false ∧ ∃ u ∈ m.uses, op.reqPred s a u = true) ∧
      (∀ j, j ≠ k → t.ops[j]? = s.ops[j]?) ∧ t.inFlight = s.inFlight

/-- An operation is performed once at each agent of its scope and nowhere else (R60, R63): a perform move
for an agent outside the scope, for an agent where it was performed, or for no operation, changes no TLB,
operation or access. -/
def Obligations.PerformOncePerAgentOfTheScope : Prop :=
  ∀ (s : State) (k : Nat) (a : Agent) (extra : List TlbEntry) (rest : List Event),
    (∀ op, s.ops[k]? = some op → a ∉ op.scope ∨ a ∈ op.performed) →
    ∃ t, step { s with schedule := .perform k a extra :: rest } = .next t ∧
      (∀ b, t.tlb b = s.tlb b) ∧ t.ops = s.ops ∧ t.inFlight = s.inFlight ∧ t.pes = s.pes

/-- The scope of an issued operation is the Outer Shareable domain of its issuer (R63; the domain is the
parameter `OSH_DOMAIN`, decision D26, assumption 33): it holds the issuer, and another agent exactly when
the configuration lists it. -/
def Obligations.ScopeIsTheOuterShareableDomain : Prop :=
  ∀ (i : Instr) (s t : State) (op : Op), exec i s = .next t → t.ops = s.ops ++ [op] →
    op.issuer = s.self ∧ op.scope.Nodup ∧ .pe s.self ∈ op.scope ∧
    ∀ a, a ∈ op.scope ↔ a = .pe s.self ∨ ∃ l, s.cfg.oshMembers.lookup s.self = some l ∧ a ∈ l

/-- When an operation is complete (R60 for `AllAttr`, R61 for `ExcludeXS`): performed at every agent of its
scope and at no other, and every waited access is complete, or, with the nXS qualifier, every one whose XS
attribute is 0. -/
def Obligations.CompletionOfEachVariant : Prop :=
  ∀ (s : State) (k : Nat) (op : Op), s.ops[k]? = some op → (∀ i ∈ op.waits, i < s.inFlight.length) →
    (op.attr = .allAttr → (s.opComplete k = true ↔
      (∀ a, a ∈ op.performed ↔ a ∈ op.scope) ∧
        ∀ i ∈ op.waits, ∀ m, s.inFlight[i]? = some m → m.complete = true)) ∧
    (op.attr = .excludeXS → (s.opComplete k = true ↔
      (∀ a, a ∈ op.performed ↔ a ∈ op.scope) ∧
        ∀ i ∈ op.waits, ∀ m, s.inFlight[i]? = some m → m.xs = false → m.complete = true))

/-- The consequence R61 marks as derived: if the operation would be complete as `AllAttr`, it is complete
as `ExcludeXS`; and a waited access with XS 1 can be incomplete after the nXS operation is complete. -/
def Obligations.NxsCompletesNoLater : Prop :=
  (∀ (inFlight : List Access) (op : Op),
    ({ op with attr := .allAttr } : Op).complete inFlight = true →
    ({ op with attr := .excludeXS } : Op).complete inFlight = true) ∧
  ∃ (inFlight : List Access) (op : Op), op.attr = .excludeXS ∧ op.complete inFlight = true ∧
    ({ op with attr := .allAttr } : Op).complete inFlight = false

/-- Completion is stable: in every state, faithful or not, an operation that is complete stays complete
whatever step is taken (R39, R60, R61). -/
def Obligations.CompletionIsStable : Prop :=
  ∀ (s t : State) (k : Nat), step s = .next t → s.opComplete k = true → t.opComplete k = true

/-- The environment is free (R38, decisions D22 and D23, assumptions 29 and 30): at any step it may remove any
entries of any TLB, and add to the TLB of any agent of the machine any well-formed entry it does not hold;
nothing else changes but the schedule, and a fill outside these guards changes no TLB either. An agent of the
machine is a PE or a System MMU there is. An entry is well formed when it covers an address and its VMID has
`VMID_BITS` bits (R36), the 128-bit format comes only with `FEAT_D128` (R100), and the Realm Security state
(R139) only with `FEAT_RME`; the IPA space is any of the three, whatever the features. -/
def Obligations.EnvironmentMayDropAndFill : Prop :=
  (∀ (s : State) (a : Agent) (rest : List Event),
    (∀ drop : List TlbEntry, ∃ t, step { s with schedule := .evict a drop :: rest } = .next t ∧
      t.tlb a = (s.tlb a).filter (fun e => decide (e ∉ drop)) ∧ (∀ b, b ≠ a → t.tlb b = s.tlb b) ∧
      s.SameApartFromTlbs t ∧ t.schedule = rest) ∧
    ∀ e : TlbEntry, ∃ t, step { s with schedule := .fill a e :: rest } = .next t ∧
      (s.hasAgent a = true → e.wf s.cfg = true → e ∉ s.tlb a → t.tlb a = s.tlb a ++ [e]) ∧
      (s.hasAgent a = false ∨ e.wf s.cfg = false ∨ e ∈ s.tlb a → t.tlb a = s.tlb a) ∧
      (∀ b, b ≠ a → t.tlb b = s.tlb b) ∧ s.SameApartFromTlbs t ∧ t.schedule = rest) ∧
  (∀ (s : State) (n : Nat), (s.hasAgent (.pe n) = true ↔ n < s.pes.length) ∧
    (s.hasAgent (.smmu n) = true ↔ n < s.smmus.length)) ∧
  ∀ (cfg : Config) (e : TlbEntry), e.wf cfg = true ↔
    0 < e.size ∧ e.vmid < 2 ^ cfg.vmidBits ∧ (e.fmt = .d128 → cfg.featD128 = true) ∧
      (e.ss = .realm → cfg.featRME = true)

/-! ### Invariants of the machine -/

/-- Every step, from every state, keeps the state well formed: the Exception levels legal, the `pc`s aligned,
the VMIDs in their width, the TLBs sets of well-formed entries, the records of operations possible, the program
text in its canonical form. -/
def Obligations.StepKeepsStateWellFormed : Prop :=
  ∀ s t : State, s.Wf → step s = .next t → t.Wf

/-- Every step keeps the history in agreement with the records (R41): the issues, the performs and the
completions it notes are exactly those there were, each once. A step only adds to the history, and a perform
it adds is noted with exactly the entries that the step removed from that agent's TLB, the required ones among
them. -/
def Obligations.StepKeepsHistoryInAgreement : Prop :=
  (∀ s t : State, s.HistoryAgrees → step s = .next t → t.HistoryAgrees) ∧
  ∀ s t : State, step s = .next t → ∃ added, t.history = s.history ++ added ∧
    ∀ k a removed, .performed k a removed ∈ added →
      (∀ e, e ∈ removed ↔ e ∈ s.tlb a ∧ e ∉ t.tlb a) ∧
      ∃ op, s.ops[k]? = some op ∧ a ∈ op.scope ∧ a ∉ op.performed ∧ ∀ e ∈ op.required s a, e ∈ removed

/-- A run may start in the reset state: it is well formed, `Ops` is empty (R45), its history agrees with it
and its waits are justified. Its other values are the model's choices (assumptions 2 to 6). -/
def Obligations.ResetIsInitial : Prop :=
  State.reset.Initial ∧ State.reset.HistoryAgrees ∧ State.reset.WaitsAreJustified ∧ State.reset.ops = []

/-- The promise of every perform step (R60, and R68, which the spec marks as derived), from every state:
whenever a step takes an agent into an operation's performed agents, it is a perform move of that operation,
which was there before with the agent in its scope; the step leaves no entry meeting its requirements in that
agent's TLB, and every incomplete access of the agent that used one is among its waits. Beside it an invariant
that every step keeps: an operation waits only for accesses that there are, made by an agent at which it was
performed, with a translation that meets its requirements. When an operation with these waits is complete is
`CompletionOfEachVariant`; which accesses count is the spec's decision D24 (assumption 31). -/
def Obligations.PerformStepKeepsThePromise : Prop :=
  (∀ (s t : State) (k : Nat) (op' : Op) (a : Agent), step s = .next t → t.ops[k]? = some op' →
    a ∈ op'.performed → (∀ op, s.ops[k]? = some op → a ∉ op.performed) →
    ∃ op, s.ops[k]? = some op ∧ op'.asIssued = op.asIssued ∧ a ∈ op.scope ∧
      (∃ extra rest, s.schedule = .perform k a extra :: rest) ∧
      (∀ e ∈ t.tlb a, e ∈ s.tlb a ∧ op.reqPred s a e = false) ∧
      ∀ (j : Nat) (m : Access), s.inFlight[j]? = some m → m.agent = a → m.complete = false →
        (∃ e ∈ m.uses, op.reqPred s a e = true) → j ∈ op'.waits) ∧
  ∀ s t : State, s.WaitsAreJustified → step s = .next t → t.WaitsAreJustified

/-- The promise after the instruction along a run (R68, which the spec marks as derived): in a run from any
initial state, an operation that is complete was, for each agent of its scope, performed there by some step of
the run, from `u` to `v`, which left no entry meeting its requirements in that agent's TLB; and every access
that was then using such a translation has completed, or, with the nXS qualifier, has if its XS attribute is
0. Which accesses count is the spec's decision D24 (assumption 31). -/
def Obligations.CompletedOperationKeepsItsPromise : Prop :=
  ∀ (s0 s : State) (k : Nat) (op : Op), s0.Initial → Reaches s0 s → s.ops[k]? = some op →
    s.opComplete k = true → ∀ a ∈ op.scope,
    ∃ (u v : State) (opu opv : Op), Reaches s0 u ∧ step u = .next v ∧ Reaches v s ∧
      u.ops[k]? = some opu ∧ opu.asIssued = op.asIssued ∧ a ∉ opu.performed ∧
      v.ops[k]? = some opv ∧ opv.asIssued = op.asIssued ∧ a ∈ opv.performed ∧
      (∃ extra rest, u.schedule = .perform k a extra :: rest) ∧
      (∀ e ∈ v.tlb a, op.reqPred u a e = false) ∧
      ∀ (j : Nat) (m : Access), u.inFlight[j]? = some m → m.agent = a → m.complete = false →
        (∃ e ∈ m.uses, op.reqPred u a e = true) →
        ∃ m', s.inFlight[j]? = some m' ∧ m'.uses = m.uses ∧
          (m'.complete = true ∨ (op.attr = .excludeXS ∧ m'.xs = true))
end

