-- ==== Sys2Proof/Laws/State.lean ====
section
/-! SUPPORT. The small lemmas of the state's updates: what each leaves alone, and what a read after it
gives. -/

namespace Sys2Proof.Machine

/-! ### `setPE` -/

@[simp] theorem State.setPE_cfg (s : State) (n : Nat) (p : PE) : (s.setPE n p).cfg = s.cfg := rfl
@[simp] theorem State.setPE_pes (s : State) (n : Nat) (p : PE) : (s.setPE n p).pes = s.pes.set n p := rfl
@[simp] theorem State.setPE_smmus (s : State) (n : Nat) (p : PE) : (s.setPE n p).smmus = s.smmus := rfl
@[simp] theorem State.setPE_self (s : State) (n : Nat) (p : PE) : (s.setPE n p).self = s.self := rfl
@[simp] theorem State.setPE_inFlight (s : State) (n : Nat) (p : PE) :
    (s.setPE n p).inFlight = s.inFlight := rfl
@[simp] theorem State.setPE_ops (s : State) (n : Nat) (p : PE) : (s.setPE n p).ops = s.ops := rfl
@[simp] theorem State.setPE_mem (s : State) (n : Nat) (p : PE) : (s.setPE n p).mem = s.mem := rfl
@[simp] theorem State.setPE_schedule (s : State) (n : Nat) (p : PE) :
    (s.setPE n p).schedule = s.schedule := rfl
@[simp] theorem State.setPE_history (s : State) (n : Nat) (p : PE) :
    (s.setPE n p).history = s.history := rfl

/-- Reading a PE after replacing one that exists. -/
theorem State.peAt_setPE (s : State) (n m : Nat) (p : PE) (h : n < s.pes.length) :
    (s.setPE n p).peAt m = if m = n then p else s.peAt m := by
  by_cases hm : m = n
  · subst hm
    simp [State.peAt, List.getD_eq_getElem?_getD, h]
  · have hn : n ≠ m := fun e => hm e.symm
    simp [State.peAt, List.getD_eq_getElem?_getD, List.getElem?_set_ne hn, hm]

@[simp] theorem State.pe_setPE (s : State) (p : PE) (h : s.self < s.pes.length) :
    (s.setPE s.self p).pe = p := by
  simp [State.pe, State.peAt_setPE _ _ _ _ h]

/-! ### `setTlb` -/

@[simp] theorem State.setTlb_cfg (s : State) (a : Agent) (t : List TlbEntry) :
    (s.setTlb a t).cfg = s.cfg := by cases a <;> rfl
@[simp] theorem State.setTlb_self (s : State) (a : Agent) (t : List TlbEntry) :
    (s.setTlb a t).self = s.self := by cases a <;> rfl
@[simp] theorem State.setTlb_inFlight (s : State) (a : Agent) (t : List TlbEntry) :
    (s.setTlb a t).inFlight = s.inFlight := by cases a <;> rfl
@[simp] theorem State.setTlb_ops (s : State) (a : Agent) (t : List TlbEntry) :
    (s.setTlb a t).ops = s.ops := by cases a <;> rfl
@[simp] theorem State.setTlb_mem (s : State) (a : Agent) (t : List TlbEntry) :
    (s.setTlb a t).mem = s.mem := by cases a <;> rfl
@[simp] theorem State.setTlb_schedule (s : State) (a : Agent) (t : List TlbEntry) :
    (s.setTlb a t).schedule = s.schedule := by cases a <;> rfl
@[simp] theorem State.setTlb_history (s : State) (a : Agent) (t : List TlbEntry) :
    (s.setTlb a t).history = s.history := by cases a <;> rfl

/-- Reading a TLB after replacing that of an agent that exists. -/
theorem State.tlb_setTlb (s : State) (a b : Agent) (t : List TlbEntry) (h : s.hasAgent a = true) :
    (s.setTlb a t).tlb b = if b = a then t else s.tlb b := by
  cases a with
  | pe n =>
    have hn : n < s.pes.length := by simpa [State.hasAgent] using h
    cases b with
    | pe m =>
      by_cases hm : m = n <;> simp [State.setTlb, State.tlb, State.peAt_setPE _ _ _ _ hn, hm]
    | smmu m => simp [State.setTlb, State.tlb]
  | smmu n =>
    have hn : n < s.smmus.length := by simpa [State.hasAgent] using h
    cases b with
    | pe m => simp [State.setTlb, State.tlb, State.peAt]
    | smmu m =>
      by_cases hm : m = n
      · subst hm
        simp [State.setTlb, State.tlb, List.getD_eq_getElem?_getD, hn]
      · have hne : n ≠ m := fun e => hm e.symm
        simp [State.setTlb, State.tlb, List.getD_eq_getElem?_getD, List.getElem?_set_ne hne, hm]

/-- An agent that does not exist holds no entry (R35: every agent owns its TLB). -/
theorem State.tlb_of_not_hasAgent (s : State) (a : Agent) (h : s.hasAgent a = false) : s.tlb a = [] := by
  cases a with
  | pe n =>
    have hn : s.pes[n]? = none := by simpa [State.hasAgent] using h
    simp [State.tlb, State.peAt, List.getD_eq_getElem?_getD, hn, PE.reset]
  | smmu n =>
    have hn : s.smmus[n]? = none := by simpa [State.hasAgent] using h
    simp [State.tlb, List.getD_eq_getElem?_getD, hn]

/-- Replacing the TLB of an agent that does not exist changes nothing. -/
theorem State.setTlb_of_not_hasAgent (s : State) (a : Agent) (t : List TlbEntry)
    (h : s.hasAgent a = false) : s.setTlb a t = s := by
  cases a with
  | pe n =>
    have hn : s.pes.length ≤ n := by simpa [State.hasAgent] using h
    simp [State.setTlb, State.setPE, List.set_eq_of_length_le hn]
  | smmu n =>
    have hn : s.smmus.length ≤ n := by simpa [State.hasAgent] using h
    simp [State.setTlb, List.set_eq_of_length_le hn]

/-- Dropping entries from a TLB, whether or not the agent exists. -/
theorem State.tlb_setTlb_filter (s : State) (a b : Agent) (p : TlbEntry → Bool) :
    (s.setTlb a ((s.tlb a).filter p)).tlb b = if b = a then (s.tlb a).filter p else s.tlb b := by
  cases h : s.hasAgent a with
  | true => exact State.tlb_setTlb s a b _ h
  | false =>
    rw [State.setTlb_of_not_hasAgent s a _ h]
    split
    · rename_i hb
      rw [hb, State.tlb_of_not_hasAgent s a h, List.filter_nil]
    · rfl

/-- A TLB is the only thing `setTlb` changes in a PE. -/
theorem State.peAt_setTlb (s : State) (a : Agent) (t : List TlbEntry) (n : Nat) :
    (s.setTlb a t).peAt n =
      if a = .pe n ∧ n < s.pes.length then { s.peAt n with tlb := t } else s.peAt n := by
  cases a with
  | smmu m => simp [State.setTlb, State.peAt]
  | pe m =>
    by_cases hm : m < s.pes.length
    · simp only [State.setTlb, State.peAt_setPE _ _ _ _ hm, Agent.pe.injEq]
      by_cases h : n = m
      · subst h; simp [hm]
      · have h' : m ≠ n := fun e => h e.symm
        simp [h, h']
    · have hne : ¬(Agent.pe m = Agent.pe n ∧ n < s.pes.length) := by
        rintro ⟨h, hn⟩
        cases h
        exact hm hn
      have hx : s.hasAgent (.pe m) = false := by simpa [State.hasAgent] using hm
      rw [State.setTlb_of_not_hasAgent s (.pe m) t hx, if_neg hne]

/-! ### `withNextPc`, `recordFault` -/

@[simp] theorem State.withNextPc_cfg (s : State) : s.withNextPc.cfg = s.cfg := rfl
@[simp] theorem State.withNextPc_smmus (s : State) : s.withNextPc.smmus = s.smmus := rfl
@[simp] theorem State.withNextPc_self (s : State) : s.withNextPc.self = s.self := rfl
@[simp] theorem State.withNextPc_inFlight (s : State) : s.withNextPc.inFlight = s.inFlight := rfl
@[simp] theorem State.withNextPc_ops (s : State) : s.withNextPc.ops = s.ops := rfl
@[simp] theorem State.withNextPc_mem (s : State) : s.withNextPc.mem = s.mem := rfl
@[simp] theorem State.withNextPc_schedule (s : State) : s.withNextPc.schedule = s.schedule := rfl
@[simp] theorem State.withNextPc_history (s : State) : s.withNextPc.history = s.history := rfl

@[simp] theorem State.recordFault_cfg (s : State) (f : Fault) : (s.recordFault f).cfg = s.cfg := rfl
@[simp] theorem State.recordFault_smmus (s : State) (f : Fault) : (s.recordFault f).smmus = s.smmus := rfl
@[simp] theorem State.recordFault_self (s : State) (f : Fault) : (s.recordFault f).self = s.self := rfl
@[simp] theorem State.recordFault_inFlight (s : State) (f : Fault) :
    (s.recordFault f).inFlight = s.inFlight := rfl
@[simp] theorem State.recordFault_ops (s : State) (f : Fault) : (s.recordFault f).ops = s.ops := rfl
@[simp] theorem State.recordFault_mem (s : State) (f : Fault) : (s.recordFault f).mem = s.mem := rfl
@[simp] theorem State.recordFault_schedule (s : State) (f : Fault) :
    (s.recordFault f).schedule = s.schedule := rfl
@[simp] theorem State.recordFault_history (s : State) (f : Fault) :
    (s.recordFault f).history = s.history := rfl

/-- Replacing the state of a PE that does not exist changes nothing. -/
theorem State.peAt_setPE_of_le (s : State) (n m : Nat) (p : PE) (h : s.pes.length ≤ n) :
    (s.setPE n p).peAt m = s.peAt m := by
  simp [State.peAt, State.setPE, List.set_eq_of_length_le h]

/-- What `withNextPc` leaves of each PE: everything but the `pc` of the executing one. -/
theorem State.peAt_withNextPc (s : State) (n : Nat) :
    s.withNextPc.peAt n =
      if n = s.self ∧ n < s.pes.length then { s.peAt n with pc := (s.peAt n).pc + 4#64 } else s.peAt n := by
  by_cases hs : s.self < s.pes.length
  · rw [State.withNextPc, State.peAt_setPE _ _ _ _ hs]
    by_cases h : n = s.self
    · subst h; simp [hs, State.pe]
    · simp [h]
  · have hne : ¬(n = s.self ∧ n < s.pes.length) := by rintro ⟨rfl, hn⟩; exact hs hn
    rw [if_neg hne, State.withNextPc, State.peAt_setPE_of_le _ _ _ _ (by omega)]

/-- What `recordFault` leaves of each PE: everything but the fault of the executing one. -/
theorem State.peAt_recordFault (s : State) (f : Fault) (n : Nat) :
    (s.recordFault f).peAt n =
      if n = s.self ∧ n < s.pes.length then { s.peAt n with fault := some f } else s.peAt n := by
  by_cases hs : s.self < s.pes.length
  · rw [State.recordFault, State.peAt_setPE _ _ _ _ hs]
    by_cases h : n = s.self
    · subst h; simp [hs, State.pe]
    · simp [h]
  · have hne : ¬(n = s.self ∧ n < s.pes.length) := by rintro ⟨rfl, hn⟩; exact hs hn
    rw [if_neg hne, State.recordFault, State.peAt_setPE_of_le _ _ _ _ (by omega)]

@[simp] theorem State.tlb_withNextPc (s : State) (a : Agent) : s.withNextPc.tlb a = s.tlb a := by
  cases a with
  | smmu n => rfl
  | pe n =>
    simp only [State.tlb, State.peAt_withNextPc]
    split <;> rfl

@[simp] theorem State.tlb_recordFault (s : State) (f : Fault) (a : Agent) :
    (s.recordFault f).tlb a = s.tlb a := by
  cases a with
  | smmu n => rfl
  | pe n =>
    simp only [State.tlb, State.peAt_recordFault]
    split <;> rfl

/-! ### `addOp`, `noted` -/

@[simp] theorem State.addOp_cfg (s : State) (op : Op) : (s.addOp op).cfg = s.cfg := rfl
@[simp] theorem State.addOp_pes (s : State) (op : Op) : (s.addOp op).pes = s.pes := rfl
@[simp] theorem State.addOp_smmus (s : State) (op : Op) : (s.addOp op).smmus = s.smmus := rfl
@[simp] theorem State.addOp_self (s : State) (op : Op) : (s.addOp op).self = s.self := rfl
@[simp] theorem State.addOp_inFlight (s : State) (op : Op) : (s.addOp op).inFlight = s.inFlight := rfl
@[simp] theorem State.addOp_ops (s : State) (op : Op) : (s.addOp op).ops = s.ops ++ [op] := rfl
@[simp] theorem State.addOp_mem (s : State) (op : Op) : (s.addOp op).mem = s.mem := rfl
@[simp] theorem State.addOp_schedule (s : State) (op : Op) : (s.addOp op).schedule = s.schedule := rfl
@[simp] theorem State.addOp_history (s : State) (op : Op) : (s.addOp op).history = s.history := rfl
@[simp] theorem State.addOp_pe (s : State) (op : Op) : (s.addOp op).pe = s.pe := rfl
@[simp] theorem State.addOp_peAt (s : State) (op : Op) (n : Nat) : (s.addOp op).peAt n = s.peAt n := rfl

@[simp] theorem State.noted_cfg (s t : State) : (State.noted s t).cfg = t.cfg := rfl
@[simp] theorem State.noted_pes (s t : State) : (State.noted s t).pes = t.pes := rfl
@[simp] theorem State.noted_smmus (s t : State) : (State.noted s t).smmus = t.smmus := rfl
@[simp] theorem State.noted_self (s t : State) : (State.noted s t).self = t.self := rfl
@[simp] theorem State.noted_inFlight (s t : State) : (State.noted s t).inFlight = t.inFlight := rfl
@[simp] theorem State.noted_ops (s t : State) : (State.noted s t).ops = t.ops := rfl
@[simp] theorem State.noted_mem (s t : State) : (State.noted s t).mem = t.mem := rfl
@[simp] theorem State.noted_schedule (s t : State) : (State.noted s t).schedule = t.schedule := rfl
@[simp] theorem State.noted_peAt (s t : State) (n : Nat) : (State.noted s t).peAt n = t.peAt n := rfl
@[simp] theorem State.noted_tlb (s t : State) (a : Agent) : (State.noted s t).tlb a = t.tlb a := by
  cases a <;> rfl

end Sys2Proof.Machine
end

