-- ==== Sys2Proof/Laws/Required.lean ====
section
/-! SUPPORT. The required set, said as the list of requirements, and the attributes of an operation it does
not read. -/

namespace Sys2Proof.Machine

/-- Only the reserved value of `TG` selects no granule. -/
theorem granuleOfTG_eq_none (tg : BitVec 2) : granuleOfTG tg = none ↔ tg = 0b00#2 := by
  revert tg
  decide

/-- `ReqPred` as the page's list of requirements (R97). -/
theorem Op.reqPred_iff (s : State) (op : Op) (a : Agent) (e : TlbEntry) :
    op.reqPred s a e = true ↔
      op.guarantee s.cfg = true ∧ op.kindOK s.cfg e = true ∧ e.regime = .el10 ∧ e.ss = op.ss ∧
        some e.ipaSpace = (op.nsReading s.cfg).space ∧ e.vmid = op.vmid ∧ some e.granule = op.granule ∧
        op.inRange s.cfg e.granule e = true ∧ op.agentOK s a e = true := by
  simp only [Op.reqPred, Bool.and_eq_true, beq_iff_eq, Option.any_eq_true]
  constructor
  · rintro ⟨⟨⟨⟨⟨⟨⟨⟨h1, h2⟩, h3⟩, h4⟩, h5⟩, h6⟩, h7⟩, g, hg, h8⟩, h9⟩
    rw [hg, Option.some.injEq] at h7
    exact ⟨h1, h2, h3, h4, h5, h6, h7 ▸ hg.symm, h7 ▸ h8, h9⟩
  · rintro ⟨h1, h2, h3, h4, h5, h6, h7, h8, h9⟩
    exact ⟨⟨⟨⟨⟨⟨⟨⟨h1, h2⟩, h3⟩, h4⟩, h5⟩, h6⟩, h7⟩, _, h7.symm, h8⟩, h9⟩

/-- What a guarantee needs (R97). -/
theorem Op.guarantee_iff (cfg : Config) (op : Op) :
    op.guarantee cfg = true ↔
      op.granule.isSome = true ∧ res0Clean cfg (op.nsReading cfg).isRes0 op.operand = true ∧
        (op.nsReading cfg).space.isSome = true ∧ op.unpredictable cfg = false := by
  simp only [Op.guarantee, Bool.and_eq_true, Bool.not_eq_true']
  tauto

/-- Clean reserved bits (R84). -/
theorem res0Clean_iff (cfg : Config) (r : Bool) (v : Word) :
    res0Clean cfg r v = true ↔
      (cfg.res0Policy = .noGuarantee → operandRes0 v = 0#15 ∧ (r = true → operandNS v = false)) := by
  cases h : cfg.res0Policy <;> cases r <;> simp [res0Clean, h]

/-- To lie in the range, under each reading of `RANGE_MATCH` (R102). -/
theorem Op.inRange_iff (cfg : Config) (op : Op) (g : Granule) (e : TlbEntry) :
    op.inRange cfg g e = true ↔
      (cfg.rangeMatch = .within → rangeBase cfg op.ds g op.operand ≤ e.ipaBase ∧
          e.ipaBase + e.size ≤ rangeEnd cfg op.ds g op.operand) ∧
        (cfg.rangeMatch = .overlap → e.ipaBase < rangeEnd cfg op.ds g op.operand ∧
          rangeBase cfg op.ds g op.operand < e.ipaBase + e.size) := by
  cases h : cfg.rangeMatch <;> simp [Op.inRange, h]

/-- Nothing is required of an operation that promises nothing. -/
theorem Op.reqPred_of_not_guarantee {s : State} {op : Op} {a : Agent} {e : TlbEntry}
    (h : op.guarantee s.cfg = false) : op.reqPred s a e = false := by
  simp [Op.reqPred, h]

/-- `ReqPred` depends on the operation's issue alone, not on what was performed since. -/
theorem Op.reqPred_asIssued (s : State) (op : Op) (a : Agent) (e : TlbEntry) :
    op.asIssued.reqPred s a e = op.reqPred s a e := rfl

/-- `ReqPred` reads from the state its configuration and, for another PE, that PE's control fields. -/
theorem Op.reqPred_congr {s t : State} (op : Op) (a : Agent) (e : TlbEntry) (hc : s.cfg = t.cfg)
    (hp : ∀ n, (s.peAt n).ctl = (t.peAt n).ctl) : op.reqPred s a e = op.reqPred t a e := by
  cases a <;> simp [Op.reqPred, Op.agentOK, hc, hp]

end Sys2Proof.Machine
end

