-- ==== Sys2Proof/Laws/Agents.lean ====
section
/-! SUPPORT. What the moves of the operation agents and of the environment do, each said once. -/

namespace Sys2Proof.Machine

/-- What a well-formed entry is (R36, R100, R139). -/
theorem TlbEntry.wf_iff (cfg : Config) (e : TlbEntry) :
    e.wf cfg = true ↔
      0 < e.size ∧ e.vmid < 2 ^ cfg.vmidBits ∧ (e.fmt = .d128 → cfg.featD128 = true) ∧
        (e.ss = .realm → cfg.featRME = true) := by
  simp only [TlbEntry.wf, Bool.and_eq_true, decide_eq_true_eq, Bool.or_eq_true, bne_iff_ne, ne_eq,
    imp_iff_not_or, and_assoc]

/-- Everything the perform move can do: nothing, or the perform step of R60. -/
theorem State.performAt_cases (s : State) (k : Nat) (a : Agent) (extra : List TlbEntry) :
    s.performAt k a extra = s ∨
      ∃ op, s.ops[k]? = some op ∧ a ∈ op.scope ∧ a ∉ op.performed ∧
        s.performAt k a extra =
          { s.setTlb a (op.keptAt s a extra) with
            ops := s.ops.set k (op.afterPerform s a)
            history := s.history ++ [.performed k a (op.removedAt s a extra)] } := by
  unfold State.performAt
  split
  · exact .inl rfl
  · rename_i op hop
    split
    · rename_i hp
      simp only [Op.pendingAt, Bool.and_eq_true, Bool.not_eq_true', List.contains_eq_mem,
        decide_eq_true_eq, decide_eq_false_iff_not] at hp
      exact .inr ⟨op, hop, hp.1, hp.2, rfl⟩
    · exact .inl rfl

/-- The perform step of an operation still to be performed at the agent. -/
theorem State.performAt_eq {s : State} {k : Nat} {a : Agent} (extra : List TlbEntry) {op : Op}
    (hop : s.ops[k]? = some op) (hs : a ∈ op.scope) (hp : a ∉ op.performed) :
    s.performAt k a extra =
      { s.setTlb a (op.keptAt s a extra) with
        ops := s.ops.set k (op.afterPerform s a)
        history := s.history ++ [.performed k a (op.removedAt s a extra)] } := by
  simp [State.performAt, hop, Op.pendingAt, hs, hp]

theorem Op.mem_keptAt {s : State} {op : Op} {a : Agent} {extra : List TlbEntry} {e : TlbEntry} :
    e ∈ op.keptAt s a extra ↔ e ∈ s.tlb a ∧ op.reqPred s a e = false ∧ e ∉ extra := by
  simp [Op.keptAt]

theorem Op.mem_removedAt {s : State} {op : Op} {a : Agent} {extra : List TlbEntry} {e : TlbEntry} :
    e ∈ op.removedAt s a extra ↔ e ∈ s.tlb a ∧ (op.reqPred s a e = true ∨ e ∈ extra) := by
  simp [Op.removedAt]

theorem Op.mem_newWaits {s : State} {op : Op} {a : Agent} {i : Nat} :
    i ∈ op.newWaits s a ↔
      (∃ m, s.inFlight[i]? = some m ∧ op.waitsFor s a m = true) ∧ i ∉ op.waits := by
  simp only [Op.newWaits, List.mem_filter, List.mem_range, Bool.and_eq_true, Option.any_eq_true,
    Bool.not_eq_true', List.contains_eq_mem, decide_eq_false_iff_not]
  constructor
  · rintro ⟨_, hm, hw⟩
    exact ⟨hm, hw⟩
  · rintro ⟨⟨m, hm, hmw⟩, hw⟩
    exact ⟨(List.getElem?_eq_some_iff.mp hm).1, ⟨m, hm, hmw⟩, hw⟩

/-- `Complete(op)` in words (R60, R61). -/
theorem Op.complete_iff (inFlight : List Access) (op : Op) :
    op.complete inFlight = true ↔
      (∀ a, a ∈ op.performed ↔ a ∈ op.scope) ∧
        ∀ i ∈ op.waits, ∃ m, inFlight[i]? = some m ∧ m.released op.attr = true := by
  simp only [Op.complete, Bool.and_eq_true, List.all_eq_true, List.contains_eq_mem, decide_eq_true_eq,
    Option.any_eq_true]
  constructor
  · rintro ⟨⟨h1, h2⟩, h3⟩
    exact ⟨fun a => ⟨h2 a, h1 a⟩, h3⟩
  · rintro ⟨h, h3⟩
    exact ⟨⟨fun a => (h a).mpr, fun a => (h a).mp⟩, h3⟩

theorem Access.released_iff (attr : TlbiAttr) (m : Access) :
    m.released attr = true ↔ m.complete = true ∨ (attr = .excludeXS ∧ m.xs = true) := by
  simp [Access.released]

theorem State.opComplete_iff (s : State) (k : Nat) :
    s.opComplete k = true ↔ ∃ op, s.ops[k]? = some op ∧ op.complete s.inFlight = true := by
  simp [State.opComplete, Option.any_eq_true]

/-- Everything the completion of an access can do. -/
theorem State.completeAccess_cases (s : State) (i : Nat) :
    s.completeAccess i = s ∨ ∃ m, s.inFlight[i]? = some m ∧
      s.completeAccess i = { s with inFlight := s.inFlight.set i { m with complete := true } } := by
  unfold State.completeAccess
  split
  · exact .inl rfl
  · rename_i m hm
    exact .inr ⟨m, hm, rfl⟩

/-- Everything the beginning of an access can do. -/
theorem State.beginAccess_cases (s : State) (m : Access) :
    s.beginAccess m = s ∨ (s.hasAgent m.agent = true ∧ (∀ e ∈ m.uses, e.wf s.cfg = true) ∧
      s.beginAccess m = { s with inFlight := s.inFlight ++ [{ m with complete := false }] }) := by
  unfold State.beginAccess
  split
  · rename_i h
    simp only [Bool.and_eq_true, List.all_eq_true] at h
    exact .inr ⟨h.1, h.2, rfl⟩
  · exact .inl rfl

/-- Everything the filling of a TLB can do. -/
theorem State.fill_cases (s : State) (a : Agent) (e : TlbEntry) :
    s.fill a e = s ∨ (e.wf s.cfg = true ∧ e ∉ s.tlb a ∧ s.fill a e = s.setTlb a (s.tlb a ++ [e])) := by
  unfold State.fill
  split
  · rename_i h
    simp only [Bool.and_eq_true, Bool.not_eq_true', List.contains_eq_mem, decide_eq_false_iff_not] at h
    exact .inr ⟨h.1, h.2, rfl⟩
  · exact .inl rfl

/-- What the history notes as issued between two states. -/
theorem mem_issuedSince {s t : State} {ev : HistoryEvent} :
    ev ∈ issuedSince s t ↔ ∃ k op, s.ops.length ≤ k ∧ t.ops[k]? = some op ∧ ev = .issued k op := by
  simp only [issuedSince, List.mem_filterMap, List.mem_range]
  constructor
  · rintro ⟨k, _, h⟩
    split at h
    · cases h
    · rename_i hk
      obtain ⟨op, hop, he⟩ := Option.map_eq_some_iff.mp h
      exact ⟨k, op, by omega, hop, he.symm⟩
  · rintro ⟨k, op, hk, hop, rfl⟩
    refine ⟨k, (List.getElem?_eq_some_iff.mp hop).1, ?_⟩
    rw [if_neg (by omega), hop]
    rfl

/-- What the history notes as completed between two states. -/
theorem mem_completedSince {s t : State} {ev : HistoryEvent} :
    ev ∈ completedSince s t ↔
      ∃ k, t.opComplete k = true ∧ s.opComplete k = false ∧ ev = .completed k := by
  simp only [completedSince, List.mem_filterMap, List.mem_range]
  constructor
  · rintro ⟨k, _, h⟩
    split at h
    · rename_i hc
      simp only [Bool.and_eq_true, Bool.not_eq_true'] at hc
      simp only [Option.some.injEq] at h
      exact ⟨k, hc.1, hc.2, h.symm⟩
    · cases h
  · rintro ⟨k, ht, hs, rfl⟩
    obtain ⟨op, hop, _⟩ := (State.opComplete_iff t k).mp ht
    exact ⟨k, (List.getElem?_eq_some_iff.mp hop).1, by simp [ht, hs]⟩

/-- No issue is noted twice. -/
theorem issuedSince_nodup (s t : State) : (issuedSince s t).Nodup := by
  refine List.Nodup.filterMap ?_ List.nodup_range
  intro k k' ev hk hk'
  simp only [Option.mem_def] at hk hk'
  split at hk
  · cases hk
  · split at hk'
    · cases hk'
    · obtain ⟨op, _, rfl⟩ := Option.map_eq_some_iff.mp hk
      obtain ⟨op', _, he⟩ := Option.map_eq_some_iff.mp hk'
      exact (HistoryEvent.issued.inj he).1.symm

/-- No completion is noted twice. -/
theorem completedSince_nodup (s t : State) : (completedSince s t).Nodup := by
  refine List.Nodup.filterMap ?_ List.nodup_range
  intro k k' ev hk hk'
  simp only [Option.mem_def] at hk hk'
  split at hk
  · split at hk'
    · cases hk
      exact (HistoryEvent.completed.inj (Option.some.inj hk')).symm
    · cases hk'
  · cases hk

/-- Where no operation was issued and no access changed, nothing is noted. -/
theorem State.noted_history_of_eq {s t : State} (ho : t.ops = s.ops) (hi : t.inFlight = s.inFlight) :
    (State.noted s t).history = t.history := by
  have h1 : issuedSince s t = [] := by
    refine List.eq_nil_iff_forall_not_mem.mpr fun ev hev => ?_
    obtain ⟨k, op, hk, hop, _⟩ := mem_issuedSince.mp hev
    rw [ho] at hop
    exact absurd (List.getElem?_eq_some_iff.mp hop).1 (by omega)
  have h2 : completedSince s t = [] := by
    refine List.eq_nil_iff_forall_not_mem.mpr fun ev hev => ?_
    obtain ⟨k, ht, hs, _⟩ := mem_completedSince.mp hev
    have : t.opComplete k = s.opComplete k := by simp only [State.opComplete, ho, hi]
    rw [this, hs] at ht
    cases ht
  simp only [State.noted, h1, h2, List.append_nil]

end Sys2Proof.Machine
end

