-- ==== Sys2Proof/Laws/Memory.lean ====
section
/-! SUPPORT. The program text: a read after a write, and the canonical form kept by every write. -/

namespace Sys2Proof.Machine

/-- The basic law of the text: a byte written is read back, every other address is left alone. -/
theorem Memory.read_write (m : List Host.Cell) (a x : Nat) (b : Byte) :
    Memory.read (Memory.write m a b) x = if x = a then some b else Memory.read m x := by
  induction m with
  | nil =>
    by_cases h : x = a
    · simp [Memory.read, Memory.write, h]
    · have hb : (x == a) = false := by simpa using h
      simp [Memory.read, Memory.write, List.lookup, h, hb]
  | cons c m ih =>
    obtain ⟨y, c⟩ := c
    simp only [Memory.read, Memory.write] at ih ⊢
    split
    · by_cases h : x = a
      · simp [List.lookup, h]
      · have hb : (x == a) = false := by simpa using h
        simp [List.lookup, h, hb]
    · split
      · rename_i hya
        subst hya
        by_cases h : x = a
        · simp [List.lookup, h]
        · have hb : (x == a) = false := by simpa using h
          simp [List.lookup, h, hb]
      · rename_i hlt hne
        by_cases hy : x = y
        · have hxa : x ≠ a := fun e => hne (e ▸ hy)
          subst hy
          simp [List.lookup, hxa]
        · have hb : (x == y) = false := by simpa using hy
          simp only [List.lookup, hb]
          exact ih

theorem Memory.risingFrom_write (m : List Host.Cell) (lo : Option Nat) (a : Nat) (b : Byte)
    (hlo : lo.all (· < a) = true) (h : Memory.risingFrom lo m = true) :
    Memory.risingFrom lo (Memory.write m a b) = true := by
  induction m generalizing lo with
  | nil => simpa [Memory.write, Memory.risingFrom] using hlo
  | cons c m ih =>
    obtain ⟨y, c⟩ := c
    simp only [Memory.risingFrom, Bool.and_eq_true] at h
    simp only [Memory.write]
    split
    · rename_i hlt
      simp [Memory.risingFrom, hlo, hlt, h.2]
    · split
      · rename_i heq
        subst heq
        simp [Memory.risingFrom, h.1, h.2]
      · rename_i hlt hne
        simp only [Memory.risingFrom, h.1, Bool.true_and]
        exact ih (some y) (by simp; omega) h.2

theorem Memory.all_write (m : List Host.Cell) (a : Nat) (b : Byte) (ha : a < 2 ^ 64)
    (h : m.all (fun c => c.1 < 2 ^ 64) = true) :
    (Memory.write m a b).all (fun c => c.1 < 2 ^ 64) = true := by
  induction m with
  | nil => simpa [Memory.write] using ha
  | cons c m ih =>
    obtain ⟨y, c⟩ := c
    simp only [List.all_cons, Bool.and_eq_true] at h
    simp only [Memory.write]
    split
    · simp only [List.all_cons, h.1, h.2, Bool.and_true]
      simpa using ha
    · split
      · simp only [List.all_cons, h.2, Bool.and_true]
        simpa using ha
      · simp only [List.all_cons, h.1, Bool.true_and]
        exact ih h.2

/-- A write keeps the canonical form. -/
theorem Memory.wf_write (m : List Host.Cell) (a : Nat) (b : Byte) (ha : a < 2 ^ 64)
    (h : Memory.wf m = true) : Memory.wf (Memory.write m a b) = true := by
  simp only [Memory.wf, Bool.and_eq_true] at h ⊢
  exact ⟨Memory.risingFrom_write m none a b (by simp) h.1, Memory.all_write m a b ha h.2⟩

theorem byteAddr_lt (pc : Word) (i : Nat) : byteAddr pc i < 2 ^ 64 := (pc + BitVec.ofNat 64 i).isLt

/-- Storing an instruction word keeps the canonical form. -/
theorem Memory.wf_writeWord (m : List Host.Cell) (pc : Word) (w : InstrWord) (h : Memory.wf m = true) :
    Memory.wf (Memory.writeWord m pc w) = true :=
  Memory.wf_write _ _ _ (byteAddr_lt _ _) <| Memory.wf_write _ _ _ (byteAddr_lt _ _) <|
    Memory.wf_write _ _ _ (byteAddr_lt _ _) <| Memory.wf_write _ _ _ (byteAddr_lt _ _) h

/-- The four addresses of an instruction are different, also where they wrap. -/
theorem byteAddr_ne (pc : Word) (i j : Nat) (hi : i < 4) (hj : j < 4) (h : i ≠ j) :
    byteAddr pc i ≠ byteAddr pc j := by
  have hpc := pc.isLt
  simp only [byteAddr, BitVec.toNat_add, BitVec.toNat_ofNat]
  omega

/-- A stored instruction word is fetched back. -/
theorem Memory.readWord_writeWord (m : List Host.Cell) (pc : Word) (w : InstrWord) :
    Memory.readWord (Memory.writeWord m pc w) pc = some (bytesOfWord w) := by
  simp [Memory.readWord, Memory.writeWord, Memory.read_write, bytesOfWord,
    byteAddr_ne pc 0 1 (by decide) (by decide) (by decide), byteAddr_ne pc 0 2 (by decide) (by decide) (by decide),
    byteAddr_ne pc 0 3 (by decide) (by decide) (by decide), byteAddr_ne pc 1 2 (by decide) (by decide) (by decide),
    byteAddr_ne pc 1 3 (by decide) (by decide) (by decide), byteAddr_ne pc 2 3 (by decide) (by decide) (by decide)]

/-- The bytes of a word join to the word (R53). -/
theorem wordOfBytes_bytesOfWord (w : InstrWord) :
    wordOfBytes (w.extractLsb' 0 8) (w.extractLsb' 8 8) (w.extractLsb' 16 8) (w.extractLsb' 24 8) = w := by
  apply BitVec.eq_of_toNat_eq
  have h := w.isLt
  have or_byte (a b : Nat) : a <<< 8 ||| b % 2 ^ 8 = a * 2 ^ 8 + b % 2 ^ 8 := by
    rw [← Nat.shiftLeft_add_eq_or_of_lt (Nat.mod_lt _ (by decide)), Nat.shiftLeft_eq]
  simp only [wordOfBytes]
  rw [BitVec.toNat_append, BitVec.toNat_append, BitVec.toNat_append]
  simp only [BitVec.extractLsb'_toNat, or_byte, Nat.shiftRight_eq_div_pow]
  omega

/-- What the decoder finds in the bytes of a word. -/
theorem decode_bytesOfWord (w : InstrWord) :
    decode (bytesOfWord w) =
      match decodeWord w with
      | some i => .instr i []
      | none => .notInSpec w := by
  cases h : decodeWord w <;> simp only [bytesOfWord, decode, wordOfBytes_bytesOfWord, h]

end Sys2Proof.Machine
end

