-- ==== Sys2Proof/Laws/Ops.lean ====
section
/-! SUPPORT. What the shared operations of the meanings can answer, each said once, and what `exec` can
answer as a whole. -/

namespace Sys2Proof.Machine

/-! ### Registers, domains and control fields -/

/-- A general register reads as what it holds. -/
theorem PE.readX_of_lt (p : PE) (n : Nat) (h : n < 31) : p.readX n = p.x[n] := by
  simp [PE.readX, show n ≠ 31 by omega, h]

/-- The zero register reads as zero. -/
@[simp] theorem PE.readX_zeroRegister (p : PE) : p.readX 31 = 0#64 := rfl

/-- The members of a PE's domain: the PE itself, and those the configuration lists. -/
theorem mem_oshDomain (cfg : Config) (n : Nat) (a : Agent) :
    a ∈ oshDomain cfg n ↔ a = .pe n ∨ ∃ l, cfg.oshMembers.lookup n = some l ∧ a ∈ l := by
  by_cases ha : a = .pe n
  · simp [oshDomain, ha]
  · cases h : cfg.oshMembers.lookup n <;> simp [oshDomain, ha, h]

theorem oshDomain_nodup (cfg : Config) (n : Nat) : (oshDomain cfg n).Nodup := by
  simp only [oshDomain, List.nodup_cons]
  exact ⟨by simp, (List.nodup_dedup _).filter _⟩

/-- What `EL2Enabled()` says: EL2 exists, and the PE is at EL2 or the open part holds. -/
theorem el2Enabled_iff (cfg : Config) (c : Controls) :
    el2Enabled cfg c = true ↔ cfg.haveEL2 = true ∧ (c.el = .el2 ∨ el2EnabledBody cfg c = true) := by
  simp [el2Enabled]

/-- The one combination without a target Security state. -/
theorem targetSS_eq_none (cfg : Config) (c : Controls) :
    targetSS cfg c = none ↔
      cfg.featRME = true ∧ (scrEff cfg c).nse = true ∧ (scrEff cfg c).ns = false := by
  simp only [targetSS]
  cases cfg.featRME <;> cases (scrEff cfg c).nse <;> cases (scrEff cfg c).ns <;> simp

/-! ### The program counter, the issue and the chain over the Exception levels -/

theorem advancePc_next {s t : State} (h : advancePc s = .next t) :
    s.pe.pc.toNat + 4 < 2 ^ 64 ∧ t = s.withNextPc := by
  unfold advancePc at h
  split at h
  · rename_i hp
    cases h
    exact ⟨hp, rfl⟩
  · cases h

theorem advancePc_eq_next {s : State} (h : s.pe.pc.toNat + 4 < 2 ^ 64) : advancePc s = .next s.withNextPc := by
  simp only [advancePc, if_pos h]

theorem advancePc_ne_fault {s : State} {f : Fault} : advancePc s ≠ .fault f := by
  unfold advancePc
  split <;> simp

theorem advancePc_refused {s : State} {r : Refusal} (h : advancePc s = .refused r) :
    2 ^ 64 ≤ s.pe.pc.toNat + 4 ∧ r = .pcWrap s.pe.pc := by
  unfold advancePc at h
  split at h
  · cases h
  · rename_i hp
    cases h
    exact ⟨by omega, rfl⟩

theorem issueAndAdvance_next {attr : TlbiAttr} {v : Word} {s t : State}
    (h : issueAndAdvance attr v s = .next t) :
    s.pe.pc.toNat + 4 < 2 ^ 64 ∧ ∃ ss, targetSS s.cfg s.pe.ctl = some ss ∧
      t = (s.addOp (issueRecord s attr ss v)).withNextPc := by
  unfold issueAndAdvance at h
  split at h
  · cases h
  · rename_i ss hss
    obtain ⟨hp, ht⟩ := advancePc_next h
    exact ⟨hp, ss, hss, ht⟩

theorem issueAndAdvance_ne_fault {attr : TlbiAttr} {v : Word} {s : State} {f : Fault} :
    issueAndAdvance attr v s ≠ .fault f := by
  unfold issueAndAdvance
  split
  · simp
  · exact advancePc_ne_fault

theorem issueAndAdvance_refused {attr : TlbiAttr} {v : Word} {s : State} {r : Refusal}
    (h : issueAndAdvance attr v s = .refused r) :
    (targetSS s.cfg s.pe.ctl = none ∧ r = .noTargetSecurityState) ∨
      (2 ^ 64 ≤ s.pe.pc.toNat + 4 ∧ r = .pcWrap s.pe.pc) := by
  unfold issueAndAdvance at h
  split at h
  · rename_i hn
    cases h
    exact .inl ⟨hn, rfl⟩
  · have hp := advancePc_refused h
    exact .inr hp

/-- The path that reaches the issue (R112, R113): EL2, or EL3 with EL2 enabled. -/
def issues (cfg : Config) (c : Controls) : Prop := c.el = .el2 ∨ (c.el = .el3 ∧ el2Enabled cfg c = true)

/-- Everything the if-chain over `PSTATE.EL` can answer as a next state. -/
theorem tlbiByEL_next {attr : TlbiAttr} {rt : Nat} {w : InstrWord} {s t : State}
    (h : tlbiByEL attr rt w s = .next t) :
    s.pe.pc.toNat + 4 < 2 ^ 64 ∧
      ((issues s.cfg s.pe.ctl ∧ ∃ ss, targetSS s.cfg s.pe.ctl = some ss ∧
          t = (s.addOp (issueRecord s attr ss (s.pe.readX rt))).withNextPc) ∨
        (s.pe.ctl.el = .el3 ∧ el2Enabled s.cfg s.pe.ctl = false ∧ t = s.withNextPc)) := by
  unfold tlbiByEL at h
  split at h
  · simp [raiseUndefined] at h
  · split at h <;> simp [raiseUndefined, raiseSystemAccessTrap] at h
  · rename_i hel
    obtain ⟨hp, ss, hss, ht⟩ := issueAndAdvance_next h
    exact ⟨hp, .inl ⟨.inl hel, ss, hss, ht⟩⟩
  · rename_i hel
    split at h
    · rename_i he
      obtain ⟨hp, ss, hss, ht⟩ := issueAndAdvance_next h
      exact ⟨hp, .inl ⟨.inr ⟨hel, he⟩, ss, hss, ht⟩⟩
    · rename_i he
      obtain ⟨hp, ht⟩ := advancePc_next h
      exact ⟨hp, .inr ⟨hel, by simpa using he, ht⟩⟩

/-- Everything the if-chain over `PSTATE.EL` can raise. -/
theorem tlbiByEL_fault {attr : TlbiAttr} {rt : Nat} {w : InstrWord} {s : State} {f : Fault}
    (h : tlbiByEL attr rt w s = .fault f) :
    (s.pe.ctl.el = .el0 ∧ f = .undefined s.self w s.pe.pc) ∨
      (s.pe.ctl.el = .el1 ∧
        f = if el2Enabled s.cfg s.pe.ctl && nvEff s.cfg s.pe.ctl then
            .systemAccessTrap .el2 0x18 s.self w s.pe.pc
          else .undefined s.self w s.pe.pc) := by
  unfold tlbiByEL at h
  split at h
  · rename_i hel
    simp only [raiseUndefined, Host.Outcome.fault.injEq] at h
    exact .inl ⟨hel, h.symm⟩
  · rename_i hel
    refine .inr ⟨hel, ?_⟩
    split at h <;> simp only [raiseUndefined, raiseSystemAccessTrap, Host.Outcome.fault.injEq] at h <;>
      simp_all
  · exact absurd h issueAndAdvance_ne_fault
  · split at h
    · exact absurd h issueAndAdvance_ne_fault
    · exact absurd h advancePc_ne_fault

/-- Everything the if-chain over `PSTATE.EL` can refuse. -/
theorem tlbiByEL_refused {attr : TlbiAttr} {rt : Nat} {w : InstrWord} {s : State} {r : Refusal}
    (h : tlbiByEL attr rt w s = .refused r) :
    (issues s.cfg s.pe.ctl ∧ targetSS s.cfg s.pe.ctl = none ∧ r = .noTargetSecurityState) ∨
      (2 ^ 64 ≤ s.pe.pc.toNat + 4 ∧ r = .pcWrap s.pe.pc) := by
  unfold tlbiByEL at h
  split at h
  · simp [raiseUndefined] at h
  · split at h <;> simp [raiseUndefined, raiseSystemAccessTrap] at h
  · rename_i hel
    exact (issueAndAdvance_refused h).imp (fun g => ⟨.inl hel, g⟩) id
  · rename_i hel
    split at h
    · rename_i he
      exact (issueAndAdvance_refused h).imp (fun g => ⟨.inr ⟨hel, he⟩, g⟩) id
    · exact .inr (advancePc_refused h)

/-- An instruction that is not implemented is undefined (R91). -/
theorem exec_of_not_implemented {i : Instr} {s : State} (h : implemented s.cfg i = false) :
    exec i s = .fault (.undefined s.self (encode i) s.pe.pc) := by
  cases i with
  | tlbiRipas2le1os rt =>
    simp only [implemented] at h
    simp [exec, execTlbiRipas2le1os, present, h, raiseUndefined]
  | tlbiRipas2le1osnxs rt =>
    simp only [implemented] at h
    by_cases hp : (s.cfg.featTLBIRANGE && s.cfg.featTLBIOS) = true
    · rw [hp, Bool.true_and] at h
      simp [exec, execTlbiRipas2le1osnxs, present, hp, h, raiseUndefined]
    · simp [exec, execTlbiRipas2le1osnxs, present, hp, raiseUndefined]

/-- An implemented instruction runs the if-chain with its own attribute and word. -/
theorem exec_of_implemented {i : Instr} {s : State} (h : implemented s.cfg i = true) :
    exec i s = tlbiByEL (attrOf i) i.rt (encode i) s := by
  cases i with
  | tlbiRipas2le1os rt =>
    simp only [implemented] at h
    simp [exec, execTlbiRipas2le1os, present, h, attrOf, Instr.rt]
  | tlbiRipas2le1osnxs rt =>
    simp only [implemented, Bool.and_eq_true] at h
    simp [exec, execTlbiRipas2le1osnxs, present, h.1.1, h.1.2, h.2, attrOf, Instr.rt]

/-- Everything an instruction can answer as a next state: an issue and the advance of the `pc`, or at EL3
without EL2 the advance alone. -/
theorem exec_next {i : Instr} {s t : State} (h : exec i s = .next t) :
    implemented s.cfg i = true ∧ s.pe.pc.toNat + 4 < 2 ^ 64 ∧
      ((issues s.cfg s.pe.ctl ∧ ∃ ss, targetSS s.cfg s.pe.ctl = some ss ∧
          t = (s.addOp (issueRecord s (attrOf i) ss (s.pe.readX i.rt))).withNextPc) ∨
        (s.pe.ctl.el = .el3 ∧ el2Enabled s.cfg s.pe.ctl = false ∧ t = s.withNextPc)) := by
  cases hi : implemented s.cfg i with
  | false => rw [exec_of_not_implemented hi] at h; cases h
  | true =>
    rw [exec_of_implemented hi] at h
    exact ⟨rfl, tlbiByEL_next h⟩

end Sys2Proof.Machine
end

