-- ==== Sys2Proof/Laws/PerInstr.lean ====
section
/-! SUPPORT. The statement about every instruction as syntax, one lemma per constructor. -/

namespace Sys2Proof.Laws.WordFields

/-- The selecting fields of the encoded word are those the page gives (R71, R72), `CRn` telling the two
instructions apart, and the register field holds the register number (R73). -/
def Statement (i : Instr) : Prop :=
  i.wellFormed = true →
    (encode i).extractLsb' 19 2 = 0b01#2 ∧ (encode i).extractLsb' 16 3 = 0b100#3 ∧
      (encode i).extractLsb' 8 4 = 0b0100#4 ∧ (encode i).extractLsb' 5 3 = 0b111#3 ∧
      rtOfWord (encode i) = i.rt ∧
      (encode i).extractLsb' 12 4 =
        match i with
        | .tlbiRipas2le1os _ => 0b1000#4
        | .tlbiRipas2le1osnxs _ => 0b1001#4

theorem tlbiRipas2le1os (rt : Nat) : Statement (.tlbiRipas2le1os rt) := by
  intro h
  have hr : rt < 32 := by simpa [Instr.wellFormed] using h
  interval_cases rt <;> decide

theorem tlbiRipas2le1osnxs (rt : Nat) : Statement (.tlbiRipas2le1osnxs rt) := by
  intro h
  have hr : rt < 32 := by simpa [Instr.wellFormed] using h
  interval_cases rt <;> decide

end Sys2Proof.Laws.WordFields
end

