-- ==== Sys2Proof/Laws/Step.lean ====
section
/-! SUPPORT. Everything a step can do, said once. -/

namespace Sys2Proof.Machine

/-- What the fetch finds where the program text holds an instruction. -/
theorem fetch_instr {s : State} {bytes rest : List Byte} {i : Instr} (ha : s.pe.pc.toNat % 4 = 0)
    (hb : Memory.readWord s.mem s.pe.pc = some bytes) (hd : decode bytes = .instr i rest) :
    fetch s = .instr i := by
  simp [fetch, ha, hb, hd]

/-- Everything one execution can answer as a next state: a meaning's own. -/
theorem executeOne_next {s t : State} (h : executeOne s = .next t) :
    ∃ i, fetch s = .instr i ∧ exec i s = .next t := by
  unfold executeOne at h
  split at h
  · rename_i i hi
    exact ⟨i, hi, h⟩
  · cases h
  · cases h

/-- Everything a step of a PE can answer as a next state: an execution, or a fault recorded. -/
theorem stepPE_next {s t : State} (h : stepPE s = .next t) :
    s.pe.fault = none ∧
      ((∃ i u, fetch s = .instr i ∧ exec i s = .next u ∧ t = State.noted s u) ∨
        ∃ f, executeOne s = .fault f ∧ t = s.recordFault f) := by
  unfold stepPE at h
  split at h
  · cases h
  · rename_i hf
    refine ⟨hf, ?_⟩
    cases he : executeOne s with
    | next u =>
      rw [he] at h
      obtain ⟨i, hi, hx⟩ := executeOne_next he
      cases h
      exact .inl ⟨i, u, hi, hx, rfl⟩
    | fault f =>
      rw [he] at h
      cases h
      exact .inr ⟨f, rfl, rfl⟩
    | refused r => rw [he] at h; cases h

/-- A step in which a PE moves is a step of that PE, from the state in which it executes. -/
theorem step_of_movesNext {s u : State} (h : s.MovesNext u) : step s = stepPE u := by
  rcases h with ⟨hs, rfl⟩ | ⟨n, rest, hs, hn, rfl⟩
  · simp only [step, hs]
  · simp only [step, hs, stepEvent, if_pos hn]

/-- A step in which an operation agent or the environment moves is that move, noted in the history. -/
theorem step_agentMove (s : State) (ev : Event) (rest : List Event) (h : ∀ n, ev ≠ .pe n) :
    step { s with schedule := ev :: rest } =
      .next (State.noted { s with schedule := rest }
        (State.agentMove { s with schedule := rest } ev)) := by
  cases ev with
  | pe n => exact absurd rfl (h n)
  | _ => rfl

/-- Who moves in a step: a PE, after its move was taken from the schedule; no one, where the PE scheduled
does not exist; or an operation agent or the environment. -/
theorem step_cases {s t : State} (h : step s = .next t) :
    (s.schedule = [] ∧ stepPE s = .next t) ∨
      ∃ ev rest, s.schedule = ev :: rest ∧
        ((∃ n, ev = .pe n ∧ n < s.pes.length ∧
            stepPE { s with schedule := rest, self := n } = .next t) ∨
          (∃ n, ev = .pe n ∧ s.pes.length ≤ n ∧ t = { s with schedule := rest }) ∨
          ((∀ n, ev ≠ .pe n) ∧
            t = State.noted { s with schedule := rest }
              (State.agentMove { s with schedule := rest } ev))) := by
  unfold step at h
  split at h
  · rename_i hs
    exact .inl ⟨hs, h⟩
  · rename_i ev rest hs
    refine .inr ⟨ev, rest, hs, ?_⟩
    cases ev with
    | pe n =>
      simp only [stepEvent] at h
      split at h
      · rename_i hn
        exact .inl ⟨n, rfl, hn, h⟩
      · rename_i hn
        cases h
        exact .inr (.inl ⟨n, rfl, by simpa using hn, rfl⟩)
    | _ =>
      cases h
      exact .inr (.inr ⟨by simp, rfl⟩)

/-- Everything a step of a PE can do to the issued operations: add records that nothing was performed for. -/
theorem stepPE_ops {s t : State} (h : stepPE s = .next t) :
    ∃ new : List Op, t.ops = s.ops ++ new ∧ ∀ op ∈ new, op.performed = [] ∧ op.waits = [] := by
  rcases (stepPE_next h).2 with ⟨i, u, _, hx, rfl⟩ | ⟨f, _, rfl⟩
  · rcases (exec_next hx).2.2 with ⟨_, ss, _, rfl⟩ | ⟨_, _, rfl⟩
    · exact ⟨[issueRecord s (attrOf i) ss (s.pe.readX i.rt)], rfl, by simp [issueRecord]⟩
    · exact ⟨[], by simp, by simp⟩
  · exact ⟨[], by simp, by simp⟩

/-- Where a record of the state after a step comes from: it was there, it is new, or it was performed at one
agent. -/
theorem step_op_cases {s t : State} {k : Nat} {op' : Op} (h : step s = .next t)
    (hop : t.ops[k]? = some op') :
    s.ops[k]? = some op' ∨ (s.ops[k]? = none ∧ op'.performed = [] ∧ op'.waits = []) ∨
      ∃ op a extra rest, s.schedule = .perform k a extra :: rest ∧ s.ops[k]? = some op ∧ a ∈ op.scope ∧
        a ∉ op.performed ∧ op' = op.afterPerform s a := by
  have ofPE : ∀ u : State, u.ops = s.ops → stepPE u = .next t →
      s.ops[k]? = some op' ∨ (s.ops[k]? = none ∧ op'.performed = [] ∧ op'.waits = []) := by
    intro u hu h
    obtain ⟨new, hn, hnew⟩ := stepPE_ops h
    rw [hn, hu, List.getElem?_append] at hop
    split at hop
    · exact .inl hop
    · rename_i hk
      exact .inr ⟨List.getElem?_eq_none (by omega), hnew op' (List.mem_of_getElem? hop)⟩
  rcases step_cases h with ⟨_, h⟩ | ⟨ev, rest, hs, h⟩
  · exact (ofPE s rfl h).imp id .inl
  rcases h with ⟨n, rfl, _, h⟩ | ⟨n, rfl, _, rfl⟩ | ⟨hev, rfl⟩
  · exact (ofPE { s with schedule := rest, self := n } rfl h).imp id .inl
  · exact .inl hop
  rw [State.noted_ops] at hop
  cases ev with
  | pe n => exact absurd rfl (hev n)
  | completeAccess i =>
    rcases State.completeAccess_cases { s with schedule := rest } i with e | ⟨_, _, e⟩ <;>
      exact .inl (by simpa [State.agentMove, e] using hop)
  | beginAccess m =>
    rcases State.beginAccess_cases { s with schedule := rest } m with e | ⟨_, _, e⟩ <;>
      exact .inl (by simpa [State.agentMove, e] using hop)
  | evict a es => exact .inl (by simpa [State.agentMove, State.evict] using hop)
  | fill a e =>
    rcases State.fill_cases { s with schedule := rest } a e with e' | ⟨_, _, e'⟩ <;>
      exact .inl (by simpa [State.agentMove, e'] using hop)
  | perform k' a extra =>
    rcases State.performAt_cases { s with schedule := rest } k' a extra with e | ⟨op, ho, hsc, hp, e⟩
    · exact .inl (by simpa [State.agentMove, e] using hop)
    · simp only [State.agentMove, e, List.getElem?_set] at hop
      split at hop
      · rename_i hk
        subst hk
        split at hop
        · cases hop
          exact .inr (.inr ⟨op, a, extra, rest, hs, ho, hsc, hp, rfl⟩)
        · cases hop
      · exact .inl hop

end Sys2Proof.Machine
end

