-- ==== Sys2Proof/Tests/Slice0.lean ====
section
/-! SUPPORT. Tests of the model on the values of 95_test_vectors.md, and for every statement that has
hypotheses one named theorem with a state and operands that meet all of them together. -/

namespace Sys2Proof.Tests

set_option Elab.async false

open Sys2Proof Sys2Proof.Machine

/-! ### Small builders -/

/-- The entry `e1` of 95_test_vectors.md section 2.6. -/
def e1 : TlbEntry where
  fmt := .d64
  kind := .s2Only
  leaf := true
  level := 3
  regime := .el10
  ss := .nonSecure
  ipaSpace := .nonSecureIPA
  vmid := 5
  granule := .g4K
  ipaBase := 0x12345000
  size := 0x1000

/-- The last granule of the range of V1. -/
def e2 : TlbEntry := { e1 with ipaBase := 0x12346000 }

/-- The first granule beyond the range of V1. -/
def e3 : TlbEntry := { e1 with ipaBase := 0x12347000 }

/-- Of another VMID. -/
def e5 : TlbEntry := { e1 with vmid := 6 }

/-- Combines stage 1 and stage 2. -/
def e6 : TlbEntry := { e1 with kind := .s1s2Combined }

/-- A block that contains the range of V1. -/
def e7 : TlbEntry := { e1 with level := 2, ipaBase := 0x12200000, size := 0x200000 }

/-- Not from the leaf level. -/
def e8 : TlbEntry := { e7 with leaf := false }

/-- Straddles the end of the range of V1. -/
def e14 : TlbEntry := { e1 with ipaBase := 0x12346800 }

/-- Operand V1: 4K, one pair of granules, `TTL` 0b11, range 0x12345000 to 0x12347000. -/
def v1 : Word := 0x0000406000012345#64

/-- PE0 of program P1, at an Exception level, with `SCR_EL3.NS` and `HCR_EL2.NV` as given. -/
def pe0 (el : EL) (ns nv : Bool) : PE where
  x := (Vector.replicate 31 7#64).set 0 v1
  pc := 0x1000#64
  ctl := ⟨el, ⟨ns, false, false⟩, nv, false, false, 5⟩
  tlb := [e1, e2, e3, e5, e6]
  fault := none

/-- The start state of P1 with PE0 as given. -/
def st (el : EL) (ns nv : Bool) : State :=
  { State.reset with pes := [pe0 el ns nv, { pe0 .el1 true false with tlb := [e1] }] }

/-- The start state of P1. -/
def p1 : State := st .el2 true false

/-- The record P1 issues. -/
def op1 : Op where
  issuer := 0
  attr := .allAttr
  ss := .nonSecure
  vmid := 5
  operand := v1
  ds := false
  eel2 := false
  el := .el2
  scope := [.pe 0, .pe 1]
  performed := []
  waits := []

/-- P1 after its instruction. -/
def p1issued : State := { p1 with pes := p1.pes.set 0 { p1.pe with pc := 0x1004#64 }, ops := [op1] }

/-- The same, with an access of PE0 in flight that uses `e1`, one that has completed, and these moves
next. -/
def performing (moves : List Event) : State :=
  { p1issued with
    inFlight := [⟨.pe 0, [e1], false, false⟩, ⟨.pe 0, [e1], true, true⟩]
    schedule := moves }

/-- The same configuration with one Boolean feature changed. -/
def cfgRME : Config := { Config.example1 with featRME := true }

def cfgSEL2 : Config := { Config.example1 with featSEL2 := true }

def withCfg (c : Config) (s : State) : State := { s with cfg := c }

/-- The outcome is a next state with this property. -/
def nextWith (o : Host.Outcome State Fault Refusal) (p : State → Bool) : Bool :=
  match o with
  | .next t => p t
  | .fault _ => false
  | .refused _ => false

/-- The next state, where there is one. -/
def after (o : Host.Outcome State Fault Refusal) (s : State) : State :=
  match o with
  | .next t => t
  | .fault _ => s
  | .refused _ => s

/-- The outcome as plain data that can be compared. -/
def outcomeData (o : Host.Outcome State Fault Refusal) : Option State × Option Fault × Option Refusal :=
  match o with
  | .next t => (some t, none, none)
  | .fault f => (none, some f, none)
  | .refused r => (none, none, some r)

theorem outcomeData_next (o : Host.Outcome State Fault Refusal) (t : State) :
    o = .next t ↔ outcomeData o = (some t, none, none) := by cases o <;> simp [outcomeData]

theorem outcomeData_fault (o : Host.Outcome State Fault Refusal) (f : Fault) :
    o = .fault f ↔ outcomeData o = (none, some f, none) := by cases o <;> simp [outcomeData]

theorem outcomeData_refused (o : Host.Outcome State Fault Refusal) (r : Refusal) :
    o = .refused r ↔ outcomeData o = (none, none, some r) := by cases o <;> simp [outcomeData]

/-! ### Well-formedness: an ill-formed term for each check -/

theorem test_wf_refuses_os_32 : (Instr.tlbiRipas2le1os 32).wellFormed = false := by decide
theorem test_wf_refuses_nxs_32 : (Instr.tlbiRipas2le1osnxs 32).wellFormed = false := by decide

/-! ### Decoding: words written from the fields of R74 with the values of R71 and R72 -/

/-- `TLBI RIPAS2LE1OS, X7`: fixed bits, `L`, `op0`, `op1`, `CRn`, `CRm`, `op2`, `Rt`. -/
theorem test_decode_os :
    decodeWord (0b1101010100#10 ++ 0#1 ++ 0b01#2 ++ 0b100#3 ++ 0b1000#4 ++ 0b0100#4 ++ 0b111#3 ++ 0b00111#5) =
      some (.tlbiRipas2le1os 7) := by decide

/-- `TLBI RIPAS2LE1OSNXS` with `<Xt>` omitted: `Rt` is 0b11111 (R86). -/
theorem test_decode_nxs :
    decodeWord (0b1101010100#10 ++ 0#1 ++ 0b01#2 ++ 0b100#3 ++ 0b1001#4 ++ 0b0100#4 ++ 0b111#3 ++ 0b11111#5) =
      some (.tlbiRipas2le1osnxs 31) := by decide

/-- The words of 95_test_vectors.md section 2.1, least significant byte first. -/
theorem test_encode_os : encodeBytes (.tlbiRipas2le1os 3) = [0xE3#8, 0x84#8, 0x0C#8, 0xD5#8] := by decide
theorem test_encode_nxs : encodeBytes (.tlbiRipas2le1osnxs 30) = [0xFE#8, 0x94#8, 0x0C#8, 0xD5#8] := by decide

theorem test_table_words :
    decodeTableWord 32 0xD50C84E0 = some (.tlbiRipas2le1os 0) ∧
      decodeTableWord 32 0xD50C94FF = some (.tlbiRipas2le1osnxs 31) ∧
      decodeTableWord 32 0xD50CA4E0 = none := by decide

/-- The syndrome of 95_test_vectors.md section 2.5. -/
theorem test_trap_syndrome :
    trapSyndrome (encode (.tlbiRipas2le1os 3)) = 0x621F2068#32 ∧
      trapSyndrome (encode (.tlbiRipas2le1osnxs 31)) = 0x621F27E8#32 := by decide

/-! ### The operand: 95_test_vectors.md sections 2.2 and 2.3 -/

/-- V1 and V3: start and end of the range. -/
theorem test_range_v1_v3 :
    rangeBase Config.example1 false .g4K v1 = 0x12345000 ∧ rangeEnd Config.example1 false .g4K v1 = 0x12347000 ∧
      rangeBase Config.example1 false .g16K 0x0000924000010800#64 = 0x42000000 ∧
      rangeLen .g16K 0x0000924000010800#64 = 0x500000 := by decide

/-- V17 to V19: with `FEAT_LPA2` and `DS` the field counts units of 2^16. -/
theorem test_range_lpa2 :
    rangeBase { Config.example1 with featLPA2 := true } true .g16K 0x0000804000000801#64 = 0x8010000 ∧
      rangeBase { Config.example1 with featLPA2 := true } true .g4K 0x0000404000000020#64 = 0x200000 := by decide

/-- The entries of section 2.6 against operand A (V1) with `within`. -/
theorem test_required_within :
    [e1, e2, e3, e5, e6, e7, e8, e14].map (op1.reqPred p1 (.pe 0)) =
      [true, true, false, false, false, false, false, false] := by decide +kernel

/-- The same against operand B (`TTL` 0b00) with `overlap`. -/
theorem test_required_overlap :
    [e1, e3, e7, e8, e14].map
        (({ op1 with operand := 0x0000400000012345#64 } : Op).reqPred
          (withCfg { Config.example1 with rangeMatch := .overlap } p1) (.pe 0)) =
      [true, false, true, false, true] := by decide +kernel

/-- The completion table of section 2.7: the second access has XS 1. -/
theorem test_completion_table :
    [(false, false), (true, false), (false, true), (true, true)].map (fun c =>
        let fl : List Access := [⟨.pe 0, [], false, c.1⟩, ⟨.pe 0, [], true, c.2⟩]
        let o : Op := { op1 with performed := op1.scope, waits := [0, 1] }
        (o.complete fl, ({ o with attr := .excludeXS } : Op).complete fl)) =
      [(false, false), (false, true), (false, false), (true, true)] := by decide

/-! ### One step: 95_test_vectors.md programs P1, P3, P4 and P5 -/

/-- P1: at EL2 one record more and `pc` 0x1004. -/
theorem test_step_os_el2 : nextWith (step (p1.withFetchWord 32 0xD50C84E0)) (fun t =>
    t.ops == [op1] && t.pe.pc == 0x1004#64 && t.pe.tlb == p1.pe.tlb) = true := by decide +kernel

/-- P3: at EL1 with `HCR_EL2.NV` the trap is recorded and nothing is issued. -/
theorem test_step_os_el1 : nextWith (step ((st .el1 true true).withFetchWord 32 0xD50C84E3)) (fun t =>
    t.ops == [] && t.pe.pc == 0x1000#64 &&
      t.pe.fault == some (.systemAccessTrap .el2 0x18 0 0xD50C84E3#32 0x1000#64)) = true := by decide +kernel

/-- The nXS variant at EL3 with EL2 enabled, register 31: operand 0. -/
theorem test_step_nxs_el3 : nextWith (step ((st .el3 true false).withFetchWord 32 0xD50C94FF)) (fun t =>
    t.ops == [{ op1 with attr := .excludeXS, operand := 0#64, el := .el3 }]) = true := by decide +kernel

/-- P5: without `FEAT_XS` the nXS variant is `UNDEFINED`. -/
theorem test_step_nxs_without_xs :
    nextWith (step (((withCfg { Config.example1 with featXS := false } p1)).withFetchWord 32 0xD50C94E2)) (fun t =>
      t.ops == [] && t.pe.fault == some (.undefined 0 0xD50C94E2#32 0x1000#64)) = true := by decide +kernel

/-- P1, the perform step at PE0: the required `e1` and `e2` go, `e5` goes by the choice of `K`, and the
incomplete access is waited for. -/
theorem test_perform : nextWith (step (performing [.perform 0 (.pe 0) [e5]])) (fun t =>
    t.pe.tlb == [e3, e6] && t.ops == [{ op1 with performed := [.pe 0], waits := [0] }]) = true := by
  decide +kernel

/-! ### A witness for the hypotheses of every statement that has some -/

/-- A state with this word of the program text at PE0's `pc`. -/
def loaded (s : State) (w : Nat) : State := s.withFetchWord 32 w

/-- `loaded`, with PE0's move in the schedule. -/
def scheduled (s : State) (w : Nat) : State := { loaded s w with schedule := [.pe 0] }

/-- PE0 executes next, in `s`: the schedule is empty, or holds PE0's move. -/
theorem bothMoveNext (s : State) (rest : List Event) (h0 : s.schedule = rest) (h1 : s.self = 0)
    (h2 : 0 < s.pes.length) (h3 : rest = []) :
    s.MovesNext s ∧ ({ s with schedule := .pe 0 :: rest } : State).MovesNext s := by
  refine ⟨.inl ⟨h0.trans h3, rfl⟩, .inr ⟨0, rest, rfl, h2, ?_⟩⟩
  simp only [← h0, ← h1]

theorem witness_DecodeInvertsEncode :
    (Instr.tlbiRipas2le1os 31).wellFormed = true ∧ (Instr.tlbiRipas2le1osnxs 0).wellFormed = true := by decide

theorem witness_EncodeInvertsDecode :
    (decodeWord 0xD50C84FF#32 = some (.tlbiRipas2le1os 31) ∧ (Instr.tlbiRipas2le1os 31).wellFormed = true ∧
        encode (.tlbiRipas2le1os 31) = 0xD50C84FF#32) ∧
      decodeWord 0xD50C94E0#32 = some (.tlbiRipas2le1osnxs 0) ∧
        (Instr.tlbiRipas2le1osnxs 0).wellFormed = true ∧
        encode (.tlbiRipas2le1osnxs 0) = 0xD50C94E0#32 := by decide

/-- Both ways PE0 is next. -/
theorem witness_UnknownWordIsRefusedNotUndefined :
    let s := loaded p1 0xD50C84C0
    (s.MovesNext s ∧ (scheduled p1 0xD50C84C0).MovesNext s) ∧ s.pe.fault = none ∧ s.pe.pc.toNat % 4 = 0 ∧
      Memory.readWord s.mem s.pe.pc = some (bytesOfWord 0xD50C84C0#32) ∧
      decodeWord 0xD50C84C0#32 = none :=
  ⟨bothMoveNext (loaded p1 0xD50C84C0) [] rfl rfl (by decide) rfl, by decide +kernel⟩

/-- Both readings of `BaseADDR`, and the largest start address of the two smaller granules. -/
theorem witness_RangeStartIsGranuleAligned :
    (({ Config.example1 with featLPA2 := true } : Config).featLPA2 = true) ∧
      ¬(Config.example1.featLPA2 = true ∧ false = true) ∧
      rangeBase Config.example1 false .g4K 0x1FFFFFFFFF#64 = 2 ^ 49 - 2 ^ 12 ∧
      rangeBase Config.example1 false .g16K 0x1FFFFFFFFF#64 = 2 ^ 51 - 2 ^ 14 := by decide

/-- One operand for each value of `SCALE`, the first with `NUM` 0 and the last with `NUM` 31. -/
theorem witness_RangeLengthInGranules :
    operandSCALE v1 = 0#2 ∧ operandSCALE 0x0000524000010800#64 = 1#2 ∧
      operandSCALE 0x0000638000080000#64 = 2#2 ∧ operandSCALE 0xFFFFFFFFFFFFFFFF#64 = 3#2 := by decide

/-- One operand for each clause. -/
theorem witness_LevelHintTable :
    operandTTL 0x0000400000012345#64 = 0b00#2 ∧
      (operandTTL 0x000080A000000010#64 = 0b01#2 ∧ operandTG 0x000080A000000010#64 = 0b10#2 ∧
        Config.example1.featLPA2 = false) ∧
      (operandTTL 0x000071A000040000#64 = 0b01#2 ∧ ¬operandTG 0x000071A000040000#64 = 0b10#2) ∧
      operandTTL 0x0000404000000020#64 = 0b10#2 ∧ operandTTL v1 = 0b11#2 := by decide

/-- One record for each clause, under the features the clause names. -/
theorem witness_IpaSpaceTable :
    let o (ss : SecurityState) (el : EL) : Op := { op1 with ss := ss, el := el }
    (cfgRME.featRME = true ∧ (o .secure .el3).Wf cfgRME 0 ∧ (o .realm .el3).Wf cfgRME 0 ∧
        (o .nonSecure .el2).Wf cfgRME 0) ∧
      (cfgSEL2.featRME = false ∧ cfgSEL2.featSEL2 = true ∧ (o .secure .el2).Wf cfgSEL2 0 ∧
        (o .nonSecure .el2).Wf cfgSEL2 0 ∧ (o .nonSecure .el3).Wf cfgSEL2 0) ∧
      (Config.example1.featRME = false ∧ Config.example1.featSEL2 = false ∧
        (o .nonSecure .el2).Wf Config.example1 0 ∧ (o .secure .el3).Wf Config.example1 0) := by
  refine ⟨⟨?_, ?_, ?_, ?_⟩, ⟨?_, ?_, ?_, ?_, ?_⟩, ⟨?_, ?_, ?_, ?_⟩⟩ <;> decide +kernel

/-- Bit 48 alone, bit 62 alone, bit 63 where it is res0, two operands that differ in bits [62:48], and two that
differ in bit 63 where it is res0. -/
theorem witness_ReservedOperandBits :
    p1.cfg.res0Policy = .noGuarantee ∧ operandRes0 (v1 ||| 0x0001000000000000#64) ≠ 0#15 ∧
      operandRes0 (v1 ||| 0x4000000000000000#64) ≠ 0#15 ∧
      ((op1.nsReading p1.cfg).isRes0 = true ∧ operandNS (v1 ||| 0x8000000000000000#64) = true) ∧
      (withCfg { Config.example1 with res0Policy := .ignore } p1).cfg.res0Policy = .ignore ∧
      operandNS (v1 ||| 0x7FFF000000000000#64) = operandNS op1.operand ∧
      (v1 ||| 0x7FFF000000000000#64).toNat % 2 ^ 48 = op1.operand.toNat % 2 ^ 48 ∧
      (op1.nsReading (withCfg { Config.example1 with res0Policy := .ignore } p1).cfg).isRes0 = true ∧
      operandNS (v1 ||| 0x8000000000000000#64) ≠ operandNS op1.operand ∧
      (v1 ||| 0x8000000000000000#64).toNat % 2 ^ 48 = op1.operand.toNat % 2 ^ 48 := by decide

/-- The reserved granule with `TTL` 0b01, and for each row a start address with the lowest bit the row names,
and one just above its bits. -/
theorem witness_UnpredictableRangeTable :
    operandTG 0x0000002000000001#64 = 0b00#2 ∧
    [0x0000402000000001#64, 0x0000404000000001#64, 0x0000804000001001#64, 0x0000E02000000001#64,
        0x0000C1C000002001#64].map (fun v => (operandTG v, operandTTL v,
          ({ op1 with operand := v } : Op).unpredictable Config.example1)) =
        [(0b01#2, 0b01#2, true), (0b01#2, 0b10#2, true), (0b10#2, 0b10#2, true), (0b11#2, 0b01#2, true),
          (0b11#2, 0b10#2, true)] ∧
      [0x0000402000040000#64, 0x0000404000000200#64, 0x0000804000000800#64, 0x0000E02004000000#64,
        0x0000C1C000002000#64].map (fun v => ({ op1 with operand := v } : Op).unpredictable Config.example1) =
        List.replicate 5 false := by decide

/-- The reserved granule with `TTL` 0b10, and the granule and hint of each other clause. -/
theorem witness_UnpredictableMeansMisalignedStart :
    operandTG 0x0000004000000001#64 = 0b00#2 ∧
    [0x0000402000000001#64, 0x0000404000000001#64, 0x0000804000001001#64, 0x0000E02000000001#64,
        0x0000C1C000002001#64, 0x0000400000012345#64, v1, 0x000080A000000010#64].map
        (fun v => (operandTG v, operandTTL v)) =
      [(0b01#2, 0b01#2), (0b01#2, 0b10#2), (0b10#2, 0b10#2), (0b11#2, 0b01#2), (0b11#2, 0b10#2),
        (0b01#2, 0b00#2), (0b01#2, 0b11#2), (0b10#2, 0b01#2)] := by decide

/-- The reserved granule, an unpredictable range, a regime without an IPA space, bit 48, and bit 63 where it
is res0. -/
theorem witness_NothingRequiredWithoutGuarantee :
    let o (v : Word) : Op := { op1 with operand := v }
    let s (op : Op) : State := { p1issued with ops := [op] }
    let secure : Op := { op1 with ss := .secure, el := .el3 }
    ((s (o 0#64)).ops[0]? = some (o 0#64) ∧ operandTG 0#64 = 0b00#2) ∧
      ((s (o 0x0000404000000001#64)).ops[0]? = some (o 0x0000404000000001#64) ∧
        (o 0x0000404000000001#64).unpredictable Config.example1 = true) ∧
      ((s secure).ops[0]? = some secure ∧ (secure.nsReading p1issued.cfg).space = none) ∧
      ((s (o (v1 ||| 0x0001000000000000#64))).ops[0]? = some (o (v1 ||| 0x0001000000000000#64)) ∧
        p1issued.cfg.res0Policy = .noGuarantee ∧ operandRes0 (v1 ||| 0x0001000000000000#64) ≠ 0#15) ∧
      ((s (o (v1 ||| 0x8000000000000000#64))).ops[0]? = some (o (v1 ||| 0x8000000000000000#64)) ∧
        ((o (v1 ||| 0x8000000000000000#64)).nsReading p1issued.cfg).isRes0 = true ∧
        operandNS (v1 ||| 0x8000000000000000#64) = true) ∧
      Agent.pe 0 ∈ op1.scope ∧ Agent.pe 0 ∉ op1.performed := by decide +kernel

/-- Under `within` an entry that is required and one that is not; under `overlap` an entry that straddles the
range's end, one that contains the range, and the first granule beyond it; with reserved bits set, an entry that
is required under `ignore` and not under `no_guarantee`. -/
theorem witness_RequiredEntryMeetsEveryRequirement :
    let s := { p1issued with cfg := { p1issued.cfg with rangeMatch := .overlap } }.setTlb (.pe 0) [e14, e7, e3]
    let b : Op := { op1 with operand := 0x0000400000012345#64 }
    let d : Op := { op1 with operand := v1 ||| 0xFFFF000000000000#64 }
    (p1issued.cfg.rangeMatch = .within ∧ e1 ∈ op1.required p1issued (.pe 0) ∧
        e3 ∉ op1.required p1issued (.pe 0)) ∧
      s.cfg.rangeMatch = .overlap ∧ e14 ∈ b.required s (.pe 0) ∧ e7 ∈ b.required s (.pe 0) ∧
        (e3 ∈ s.tlb (.pe 0) ∧ e3 ∉ b.required s (.pe 0)) ∧
        e1 ∈ d.required (withCfg { Config.example1 with res0Policy := .ignore } p1issued) (.pe 0) ∧
        e1 ∉ d.required p1issued (.pe 0) := by decide +kernel

/-- One entry for each alternative; each differs from the required `e1` in it alone. -/
theorem witness_RequiredEntryMatchesTheOperation :
    ({ e1 with regime := .other } : TlbEntry).regime = .other ∧
      ({ e1 with ss := .secure } : TlbEntry).ss ≠ op1.ss ∧ e5.vmid ≠ op1.vmid ∧
      granuleOfTG (operandTG op1.operand) ≠ some ({ e1 with granule := .g16K } : TlbEntry).granule := by decide

theorem witness_KindOfRequiredEntry :
    operandTTL 0x0000400000012345#64 = 0b00#2 ∧ ({ e7 with level := 0 } : TlbEntry).kind = .s2Only ∧
      ({ e7 with level := 0 } : TlbEntry).leaf = true ∧ ({ e7 with level := 0 } : TlbEntry).fmt = .d64 := by
  decide

/-- One entry for each alternative, all three in the TLB. -/
theorem witness_OtherEntriesMayGoButNeedNot :
    let x : TlbEntry := { e1 with kind := .s1Only }
    let s : State := p1issued.setTlb (.pe 1) [e6, x, e8]
    s.ops[0]? = some op1 ∧ e6.kind = .s1s2Combined ∧ x.kind = .s1Only ∧ e8.leaf = false ∧
      Agent.pe 1 ∈ op1.scope ∧ Agent.pe 1 ∉ op1.performed ∧ e6 ∈ s.tlb (.pe 1) ∧ x ∈ s.tlb (.pe 1) ∧
      e8 ∈ s.tlb (.pe 1) := by decide +kernel

theorem witness_AgentClause :
    op1.ss ≠ .secure ∧ ({ op1 with ss := .secure } : Op).ss = .secure ∧ 1 ≠ op1.issuer := by decide

theorem witness_DefaultPoliciesPromiseLeast :
    0 < e1.size ∧ op1.reqPred { p1issued with cfg := { p1issued.cfg with
      res0Policy := .noGuarantee
      ttl01Policy := .literalLevel1
      rangeMatch := .within
      smmuInScope := false } } (.pe 0) e1 = true := by decide +kernel

/-- An issue, and a return at EL3. -/
theorem witness_BothVariantsInvalidateTheSame :
    p1.cfg.featXS = true ∧ exec (.tlbiRipas2le1os 0) p1 = .next p1issued ∧
      (st .el3 false false).cfg.featXS = true ∧
      exec (.tlbiRipas2le1os 0) (st .el3 false false) = .next (st .el3 false false).withNextPc := by
  simp only [outcomeData_next]
  decide +kernel

/-- At EL2 and at EL3, with the last general register and with the zero register, at the highest `pc`; and at
EL2 with the other `DS_SOURCE` and without EL3. -/
theorem witness_Ripas2le1osIssues :
    let hi : State := p1.setPE 0 { p1.pe with pc := 0xFFFFFFFFFFFFFFF8#64 }
    (30 < 32 ∧ p1.self < p1.pes.length ∧ p1.cfg.featTLBIRANGE = true ∧ p1.cfg.featTLBIOS = true ∧
        p1.pe.ctl.el = .el2 ∧ targetSS p1.cfg p1.pe.ctl = some .nonSecure ∧
        hi.pe.pc.toNat + 4 < 2 ^ 64) ∧
      (31 < 32 ∧ (st .el3 true false).pe.ctl.el = .el3 ∧
        el2Enabled (st .el3 true false).cfg (st .el3 true false).pe.ctl = true ∧
        targetSS (st .el3 true false).cfg (st .el3 true false).pe.ctl = some .nonSecure) ∧
      ((withCfg { Config.example1 with dsSource := .vtcrEL2, haveEL3 := false, scrEff := ⟨true, false, true⟩ }
            p1).pe.ctl.el = .el2 ∧
        targetSS { Config.example1 with dsSource := .vtcrEL2, haveEL3 := false, scrEff := ⟨true, false, true⟩ }
          p1.pe.ctl = some .nonSecure) := by decide +kernel

/-- At EL2 and at EL3. -/
theorem witness_Ripas2le1osnxsIssues :
    (0 < 32 ∧ p1.self < p1.pes.length ∧ p1.cfg.featTLBIRANGE = true ∧ p1.cfg.featTLBIOS = true ∧
        p1.cfg.featXS = true ∧ p1.pe.ctl.el = .el2 ∧ targetSS p1.cfg p1.pe.ctl = some .nonSecure ∧
        p1.pe.pc.toNat + 4 < 2 ^ 64) ∧
      (31 < 32 ∧ (st .el3 true false).pe.ctl.el = .el3 ∧
        el2Enabled (st .el3 true false).cfg (st .el3 true false).pe.ctl = true ∧
        targetSS (st .el3 true false).cfg (st .el3 true false).pe.ctl = some .nonSecure) := by decide +kernel

theorem witness_ReturnAtEL3OnlyAdvancesPc :
    let s := st .el3 false false
    implemented s.cfg (.tlbiRipas2le1osnxs 0) = true ∧ implemented s.cfg (.tlbiRipas2le1os 31) = true ∧
      s.pe.ctl.el = .el3 ∧ el2Enabled s.cfg s.pe.ctl = false ∧ s.pe.pc.toNat + 4 < 2 ^ 64 := by decide +kernel

/-- The trap, and `UNDEFINED` for want of `HCR_EL2.NV`, of an implementation with the bit, and of EL2. -/
theorem witness_El1TrapsOrIsUndefined :
    implemented p1.cfg (.tlbiRipas2le1os 3) = true ∧ implemented p1.cfg (.tlbiRipas2le1osnxs 3) = true ∧
      (st .el1 true true).pe.ctl.el = .el1 ∧
      (el2Enabled p1.cfg (st .el1 true true).pe.ctl = true ∧ p1.cfg.haveNV = true ∧
        (st .el1 true true).pe.ctl.nv = true) ∧
      (st .el1 true false).pe.ctl.nv = false ∧
      (withCfg { Config.example1 with haveNV := false } (st .el1 true true)).cfg.haveNV = false ∧
      el2Enabled p1.cfg (st .el1 false true).pe.ctl = false := by decide +kernel

/-- One configuration or state for each clause. -/
theorem witness_IllegalEncodingsAreUndefined :
    (withCfg { Config.example1 with featTLBIRANGE := false } p1).cfg.featTLBIRANGE = false ∧
      (withCfg { Config.example1 with featTLBIOS := false } p1).cfg.featTLBIOS = false ∧
      (withCfg { Config.example1 with featXS := false } p1).cfg.featXS = false ∧
      (st .el0 true false).pe.ctl.el = .el0 ∧ (st .el1 true true).pe.ctl.el = .el1 := by decide

/-- A trap, and two states that differ in the operand register and the TLBs. -/
theorem witness_ExceptionsDoNotDependOnTheOperand :
    let s := st .el1 true true
    let u := s.setPE 0 { s.pe with x := Vector.replicate 31 0#64, tlb := [] }
    exec (.tlbiRipas2le1os 3) s = .fault (.systemAccessTrap .el2 0x18 0 0xD50C84E3#32 0x1000#64) ∧
      exec (.tlbiRipas2le1os 3) p1 = .next { p1issued with ops := [{ op1 with operand := 7#64 }] } ∧
      s.cfg = u.cfg ∧ s.self = u.self ∧ s.pe.ctl = u.pe.ctl ∧ s.pe.pc = u.pe.pc ∧ s.pe.x ≠ u.pe.x := by
  simp only [outcomeData_next, outcomeData_fault]
  decide +kernel

/-- A state for each refusal: `SCR_EL3.{NSE, NS}` = {1, 0} with `FEAT_RME`, and the highest aligned `pc`, on
the path that issues and on the one that returns. -/
theorem witness_ExecutionRefusedOnlyWhereTheSpecRefuses :
    let a := withCfg cfgRME (p1.setPE 0 { p1.pe with ctl := ⟨.el2, ⟨false, true, false⟩, false, false, false, 5⟩ })
    let b := p1.setPE 0 { p1.pe with pc := 0xFFFFFFFFFFFFFFFC#64 }
    let c := (st .el3 false false).setPE 0 { pe0 .el3 false false with pc := 0xFFFFFFFFFFFFFFFC#64 }
    implemented a.cfg (.tlbiRipas2le1os 0) = true ∧
      exec (.tlbiRipas2le1os 0) a = .refused .noTargetSecurityState ∧
      implemented b.cfg (.tlbiRipas2le1osnxs 0) = true ∧
      exec (.tlbiRipas2le1osnxs 0) b = .refused (.pcWrap 0xFFFFFFFFFFFFFFFC#64) ∧
      exec (.tlbiRipas2le1os 0) c = .refused (.pcWrap 0xFFFFFFFFFFFFFFFC#64) := by
  simp only [outcomeData_refused]
  decide +kernel

/-- Both instructions, where they issue; PE1 is another PE. -/
theorem witness_InstructionWritesOnlyPcAndOps :
    exec (.tlbiRipas2le1os 0) p1 = .next p1issued ∧ p1.self < p1.pes.length ∧ 1 ≠ p1.self ∧
      exec (.tlbiRipas2le1osnxs 0) p1 = .next { p1issued with ops := [{ op1 with attr := .excludeXS }] } := by
  simp only [outcomeData_next]
  decide +kernel

theorem witness_ZeroRegisterPromisesNothing :
    (Instr.tlbiRipas2le1osnxs 31).rt = 31 ∧ exec (.tlbiRipas2le1osnxs 31) p1 =
      .next { p1issued with ops := [{ op1 with attr := .excludeXS, operand := 0#64 }] } := by
  simp only [outcomeData_next]
  decide +kernel

theorem witness_NoInvalidationWithoutEL2 :
    let s := withCfg { Config.example1 with haveEL2 := false } (st .el3 true false)
    s.cfg.haveEL2 = false ∧ s.pe.ctl.el ≠ .el2 ∧
      exec (.tlbiRipas2le1os 0) s = .next s.withNextPc := by
  simp only [outcomeData_next]
  decide +kernel

/-- One control state for each clause. -/
theorem witness_El2EnabledIsConstrainedAndOpen :
    ({ Config.example1 with haveEL2 := false } : Config).haveEL2 = false ∧ Config.example1.haveEL2 = true ∧
      p1.pe.ctl.el = .el2 ∧ (st .el3 false false).pe.ctl.el ≠ .el2 := by decide

/-- Each row of the table, with and without EL3. -/
theorem witness_TargetSecurityStateTable :
    [(false, false), (false, true), (true, true), (true, false)].map (fun r =>
        targetSS cfgRME ⟨.el3, ⟨r.2, r.1, false⟩, false, false, false, 0⟩) =
        [some .secure, some .nonSecure, some .realm, none] ∧
      cfgRME.featRME = true ∧ Config.example1.featRME = false ∧
      targetSS { cfgRME with haveEL3 := false, scrEff := ⟨true, true, false⟩ }
        ⟨.el2, ⟨false, false, false⟩, false, false, false, 0⟩ = some .realm := by decide

/-- Both ways PE0 is next, and each of the three outcomes. -/
theorem witness_StepRunsTheDecodedInstruction :
    let s := loaded p1 0xD50C84E0
    let el0 := loaded (st .el0 true false) 0xD50C84E0
    let top := loaded (p1.setPE 0 { p1.pe with pc := 0xFFFFFFFFFFFFFFFC#64 }) 0xD50C84E0
    (s.MovesNext s ∧ (scheduled p1 0xD50C84E0).MovesNext s) ∧ (el0.MovesNext el0 ∧ top.MovesNext top) ∧
      (s.pe.fault = none ∧ s.pe.pc.toNat % 4 = 0 ∧
        Memory.readWord s.mem s.pe.pc = some [0xE0#8, 0x84#8, 0x0C#8, 0xD5#8] ∧
        decode [0xE0#8, 0x84#8, 0x0C#8, 0xD5#8] = .instr (.tlbiRipas2le1os 0) [] ∧
        (Instr.tlbiRipas2le1os 0).wellFormed = true ∧
        nextWith (exec (.tlbiRipas2le1os 0) s) (fun _ => true) = true) ∧
      exec (.tlbiRipas2le1os 0) el0 = .fault (.undefined 0 0xD50C84E0#32 0x1000#64) ∧
      exec (.tlbiRipas2le1os 0) top = .refused (.pcWrap 0xFFFFFFFFFFFFFFFC#64) := by
  refine ⟨bothMoveNext (loaded p1 0xD50C84E0) [] rfl rfl (by decide) rfl, ⟨.inl ⟨rfl, rfl⟩, .inl ⟨rfl, rfl⟩⟩,
    by decide +kernel, ?_⟩
  simp only [outcomeData_fault, outcomeData_refused]
  decide +kernel

theorem witness_PlacedWordIsRunNext :
    (Instr.tlbiRipas2le1osnxs 31).wellFormed = true ∧ p1.self < p1.pes.length ∧ p1.pe.pc.toNat % 4 = 0 := by
  decide

/-- The last byte of the address space and one beyond the placed word. -/
theorem witness_PlacedWordIsLittleEndian :
    3 < 4 ∧ byteAddr (p1.setPE 0 { p1.pe with pc := 0xFFFFFFFFFFFFFFFC#64 }).pe.pc 3 = 2 ^ 64 - 1 ∧
      (∀ j < 4, 0x1004 ≠ byteAddr p1.pe.pc j) ∧ Memory.wf p1.mem = true ∧
      Memory.wf (loaded p1 0xD50C84E0).mem = true := by decide +kernel

/-- Both ways PE0 is next. -/
theorem witness_MisalignedFetchIsRefused :
    let s := p1.setPE 0 { p1.pe with pc := 0x1002#64 }
    (s.MovesNext s ∧ ({ s with schedule := [.pe 0] } : State).MovesNext s) ∧ s.pe.fault = none ∧
      s.pe.pc.toNat % 4 ≠ 0 :=
  ⟨bothMoveNext (p1.setPE 0 { p1.pe with pc := 0x1002#64 }) [] rfl rfl (by decide) rfl, by decide +kernel⟩

/-- Both ways PE0 is next. -/
theorem witness_FaultChangesNothingElse :
    let s := loaded (st .el1 true true) 0xD50C84E3
    (s.MovesNext s ∧ (scheduled (st .el1 true true) 0xD50C84E3).MovesNext s) ∧ s.self < s.pes.length ∧
      s.pe.fault = none ∧ executeOne s = .fault (.systemAccessTrap .el2 0x18 0 0xD50C84E3#32 0x1000#64) ∧
      1 ≠ s.self := by
  refine ⟨bothMoveNext (loaded (st .el1 true true) 0xD50C84E3) [] rfl rfl (by decide) rfl, ?_⟩
  simp only [outcomeData_fault]
  decide +kernel

/-- PE1 has faulted and PE0 moves; and PE0 has faulted and is next in both ways. -/
theorem witness_FaultIsNeverCleared :
    let s := loaded (p1.setPE 1 { p1.peAt 1 with fault := some (.fetchUnwritten 1 0#64) }) 0xD50C84E0
    let u := p1.setPE 0 { p1.pe with fault := some (.fetchUnwritten 0 0#64) }
    (nextWith (step s) (fun _ => true) = true ∧ (s.peAt 1).fault = some (.fetchUnwritten 1 0#64)) ∧
      u.pe.fault = some (.fetchUnwritten 0 0#64) ∧ u.MovesNext u ∧
      ({ u with schedule := [.pe 0] } : State).MovesNext u :=
  ⟨by decide +kernel, by decide +kernel,
    bothMoveNext (p1.setPE 0 { p1.pe with fault := some (.fetchUnwritten 0 0#64) }) [] rfl rfl (by decide) rfl⟩

theorem witness_AgentMovesNeverStop :
    let s := performing [.perform 0 (.pe 0) []]
    s.schedule = .perform 0 (.pe 0) [] :: [] ∧ ∀ n, Event.perform 0 (.pe 0) [] ≠ .pe n :=
  ⟨rfl, fun _ h => by cases h⟩

theorem witness_StepKeepsConfigurationAndProgram :
    nextWith (step (loaded p1 0xD50C84E0)) (fun _ => true) = true := by decide +kernel

theorem witness_StepKeepsExceptionLevels :
    nextWith (step (loaded (st .el3 false false) 0xD50C94FF)) (fun _ => true) = true := by decide +kernel

/-- PE0 moves and its `pc` with it; PE1's stays. -/
theorem witness_PcMovesOnlyByOwnExecution :
    nextWith (step (scheduled p1 0xD50C84E0)) (fun t =>
      t.pe.pc != p1.pe.pc && (t.peAt 1).pc == (p1.peAt 1).pc) = true := by decide +kernel

/-- Both ways a PE is next. -/
theorem witness_ExecutionTouchesNoTlb :
    (loaded p1 0xD50C84E0).schedule = [] ∧ nextWith (step (loaded p1 0xD50C84E0)) (fun _ => true) = true ∧
      (scheduled p1 0xD50C84E0).schedule = .pe 0 :: [] ∧
      nextWith (step (scheduled p1 0xD50C84E0)) (fun _ => true) = true := by decide +kernel

/-- A record that the step changes, and one that it keeps. -/
theorem witness_StepKeepsIssuedRecords :
    let s := { performing [.perform 0 (.pe 0) []] with ops := [op1, op1] }
    nextWith (step s) (fun t => t.ops != s.ops) = true ∧ s.ops[0]? = some op1 ∧ s.ops[1]? = some op1 := by
  decide +kernel

/-- The incomplete access completes, the complete one stays; an access that may begin, one of an agent the
machine does not have, and one that used an entry that is not well formed. -/
theorem witness_CompletedAccessStaysComplete :
    let s := performing [.completeAccess 0]
    (nextWith (step s) (fun t => t.inFlight != s.inFlight) = true ∧
        s.inFlight[0]? = some ⟨.pe 0, [e1], false, false⟩ ∧
        s.inFlight[1]? = some ⟨.pe 0, [e1], true, true⟩) ∧
      (s.hasAgent (.pe 1) = true ∧ ∀ e ∈ [e1], e.wf s.cfg = true) ∧ s.hasAgent (.smmu 0) = false ∧
      ∃ e ∈ [{ e1 with vmid := 2 ^ 16 }], e.wf s.cfg = false := by decide +kernel

/-- `K` is the required set, and the whole TLB. -/
theorem witness_PerformRemovesRequiredEntries :
    let s := performing []
    s.ops[0]? = some op1 ∧ Agent.pe 0 ∈ op1.scope ∧ Agent.pe 0 ∉ op1.performed ∧ Agent.pe 1 ≠ .pe 0 ∧
      (∀ e ∈ op1.required s (.pe 0), e ∈ [e1, e2]) ∧ (∀ e ∈ [e1, e2], e ∈ s.tlb (.pe 0)) ∧
      (∀ e ∈ op1.required s (.pe 0), e ∈ s.tlb (.pe 0)) := by decide +kernel

/-- One access is waited for, the complete one is not; there is another operation. -/
theorem witness_PerformWaitsForAccessesInUse :
    let s := { performing [] with ops := [op1, op1] }
    s.ops[0]? = some op1 ∧ Agent.pe 0 ∈ op1.scope ∧ Agent.pe 0 ∉ op1.performed ∧ 1 ≠ 0 ∧
      op1.newWaits s (.pe 0) = [0] := by decide +kernel

/-- Outside the scope, already performed, and no such operation. -/
theorem witness_PerformOncePerAgentOfTheScope :
    let s := { performing [] with ops := [{ op1 with performed := [.pe 0] }] }
    s.ops[0]? = some { op1 with performed := [.pe 0] } ∧ Agent.pe 2 ∉ op1.scope ∧
      Agent.pe 0 ∈ ({ op1 with performed := [.pe 0] } : Op).performed ∧ s.ops[1]? = none := by decide +kernel

theorem witness_ScopeIsTheOuterShareableDomain :
    exec (.tlbiRipas2le1os 0) p1 = .next p1issued ∧ p1issued.ops = p1.ops ++ [op1] := by
  simp only [outcomeData_next]
  decide +kernel

/-- An operation of each attribute that waits for the incomplete and the complete access. -/
theorem witness_CompletionOfEachVariant :
    let o : Op := { op1 with performed := [.pe 1, .pe 0], waits := [0, 1] }
    let s := { performing [] with ops := [o, { o with attr := .excludeXS }] }
    s.ops[0]? = some o ∧ o.attr = .allAttr ∧ s.ops[1]? = some { o with attr := .excludeXS } ∧
      (∀ i ∈ o.waits, i < s.inFlight.length) ∧ s.opComplete 0 = false ∧
      (after (step { s with schedule := [.completeAccess 0] }) s).opComplete 0 = true := by decide +kernel

theorem witness_NxsCompletesNoLater :
    ({ op1 with performed := op1.scope, waits := [0], attr := .allAttr } : Op).complete
      [⟨.pe 0, [e1], true, true⟩] = true := by decide

theorem witness_CompletionIsStable :
    let s := { performing [.completeAccess 0] with ops := [{ op1 with performed := op1.scope, waits := [1] }] }
    nextWith (step s) (fun _ => true) = true ∧ s.opComplete 0 = true := by decide +kernel

/-- A fill inside the guards, and one outside each; an entry that fails each part of well-formedness alone. -/
theorem witness_EnvironmentMayDropAndFill :
    (p1.hasAgent (.pe 1) = true ∧ e2.wf p1.cfg = true ∧ e2 ∉ p1.tlb (.pe 1) ∧ Agent.pe 0 ≠ .pe 1) ∧
      p1.hasAgent (.pe 2) = false ∧ ({ e1 with vmid := 2 ^ 16 } : TlbEntry).wf p1.cfg = false ∧
      e1 ∈ p1.tlb (.pe 1) ∧
      ([{ e1 with size := 0 }, { e1 with vmid := 2 ^ 16 }, { e1 with fmt := .d128 }, { e1 with ss := .realm }] :
        List TlbEntry).map (TlbEntry.wf { Config.example1 with featD128 := false, featRME := false }) =
          List.replicate 4 false := by decide +kernel

/-- Without `FEAT_RME` an entry of the Realm IPA space enters a TLB all the same (R36, R38). -/
theorem test_fill_realm_ipa_without_rme :
    let e : TlbEntry := { e1 with ipaSpace := .realmIPA }
    p1.cfg.featRME = false ∧
      nextWith (step { p1 with schedule := [.fill (.pe 1) e] }) (fun t => t.tlb (.pe 1) == [e1, e]) = true := by
  decide +kernel

/-- A well-formed state with an operation, accesses and text, and a step from it. -/
theorem witness_StepKeepsStateWellFormed :
    (loaded (performing []) 0xD50C84E0).Wf ∧
      nextWith (step (loaded (performing []) 0xD50C84E0)) (fun _ => true) = true := by decide +kernel

/-- A state whose history agrees and that takes a step, and a perform step, whose event is added. -/
theorem witness_StepKeepsHistoryInAgreement :
    (loaded p1 0xD50C84E0).HistoryAgrees ∧ nextWith (step (loaded p1 0xD50C84E0)) (fun _ => true) = true ∧
      nextWith (step (performing [.perform 0 (.pe 0) [e5]])) (fun t =>
        t.history == [.performed 0 (.pe 0) [e1, e2, e5]]) = true :=
  ⟨by simp [State.HistoryAgrees, loaded, p1, st, State.reset, State.withFetchWord, State.opComplete],
    by decide +kernel, by decide +kernel⟩

/-- The perform step at PE0, with an incomplete access that used the required `e1`; and a state whose one
operation already waits for that access, which is justified. -/
theorem witness_PerformStepKeepsThePromise :
    let s := performing [.perform 0 (.pe 0) []]
    let w : State :=
      { performing [.perform 0 (.pe 1) []] with ops := [{ op1 with performed := [.pe 0], waits := [0] }] }
    (nextWith (step s) (fun t => t.ops == [{ op1 with performed := [.pe 0], waits := [0] }]) = true ∧
        s.ops[0]? = some op1 ∧ Agent.pe 0 ∉ op1.performed ∧
        s.inFlight[0]? = some ⟨.pe 0, [e1], false, false⟩ ∧ op1.reqPred s (.pe 0) e1 = true) ∧
      w.WaitsAreJustified ∧ nextWith (step w) (fun _ => true) = true := by
  refine ⟨by decide +kernel, ?_, by decide +kernel⟩
  intro k op h j hj
  match k, h with
  | 0, h =>
    obtain rfl : _ = op := Option.some.inj h
    obtain rfl : j = 0 := by simpa using hj
    exact ⟨_, rfl, by decide, e1, by simp, by decide +kernel⟩
  | k + 1, h => cases h

/-- P1 with only PE0 in the domain: the instruction, then the perform step. -/
def run0 : State :=
  loaded (withCfg { Config.example1 with oshMembers := [] } { p1 with inFlight := [⟨.pe 0, [e1], true, true⟩] })
    0xD50C84E0

def run1 : State := { run0 with schedule := [.pe 0, .perform 0 (.pe 0) []] }

def run2 : State := after (step run1) run1

def run3 : State := after (step run2) run2

theorem witness_CompletedOperationKeepsItsPromise :
    run1.Initial ∧ Reaches run1 run3 ∧ run3.ops[0]? = some { op1 with scope := [.pe 0], performed := [.pe 0] } ∧
      run3.opComplete 0 = true ∧ Agent.pe 0 ∈ ({ op1 with scope := [.pe 0] } : Op).scope ∧
      run2.schedule = [.perform 0 (.pe 0) []] ∧
      (run3.tlb (.pe 0)).length = 3 := by
  refine ⟨by decide +kernel, .step (.step (.refl _) (u := run2) ?_) ?_, by decide +kernel, by decide +kernel,
    by decide +kernel, by decide +kernel, by decide +kernel⟩
  · have h : step run1 = .next run2 := (outcomeData_next _ _).mpr (by decide +kernel)
    exact h
  · have h : step run2 = .next run3 := (outcomeData_next _ _).mpr (by decide +kernel)
    exact h

/-! ### Reset -/

theorem test_reset_memory_wf : Memory.wf State.reset.mem = true := by decide
theorem test_reset_wf : State.reset.Wf := by decide +kernel

end Sys2Proof.Tests
end

/-! The perform step of R60 as a step of the machine, and the statement on the entries it need not remove. -/
namespace Sys2Proof.Machine

/-- What the perform step leaves in the agent's TLB: the entries of R60 outside `K`. -/
theorem State.tlb_performAt {s : State} {k : Nat} {op : Op} {a : Agent} (K : List TlbEntry)
    (hop : s.ops[k]? = some op) (hs : a ∈ op.scope) (hp : a ∉ op.performed) :
    (s.performAt k a K).tlb a = op.keptAt s a K :=
  calc (s.performAt k a K).tlb a
      = (s.setTlb a (op.keptAt s a K)).tlb a := by rw [State.performAt_eq K hop hs hp]; rfl
    _ = op.keptAt s a K := by simp only [Op.keptAt, State.tlb_setTlb_filter, if_true]

/-- A perform move scheduled next is taken. -/
theorem step_perform_tlb {s : State} {k : Nat} {op : Op} {a : Agent} (K : List TlbEntry)
    (hop : s.ops[k]? = some op) (hs : a ∈ op.scope) (hp : a ∉ op.performed) :
    ∃ t, step { s with schedule := [.perform k a K] } = .next t ∧ t.tlb a = op.keptAt s a K :=
  ⟨_, step_agentMove s (.perform k a K) [] (by simp),
    (State.noted_tlb _ _ a).trans (State.tlb_performAt (s := { s with schedule := [] }) K hop hs hp)⟩

/-- A required entry is a leaf entry of stage 2 only (R65, R99, R100, R107). -/
theorem Op.s2Only_leaf_of_reqPred {s : State} {op : Op} {a : Agent} {e : TlbEntry}
    (h : op.reqPred s a e = true) : e.kind = .s2Only ∧ e.leaf = true := by
  obtain ⟨_, hkind, _⟩ := (Op.reqPred_iff s op a e).mp h
  simp only [Op.kindOK, Bool.and_eq_true, beq_iff_eq] at hkind
  exact hkind.1

/-- Settles O19: such an entry does not meet `ReqPred`, so it stays unless `K` names it. -/
theorem otherEntriesMayGoButNeedNot : Obligations.OtherEntriesMayGoButNeedNot := by
  intro s k op a e hop hother
  have hreq : op.reqPred s a e = false := by
    rw [← Bool.not_eq_true]
    intro h
    obtain ⟨hkind, hleaf⟩ := Op.s2Only_leaf_of_reqPred h
    simp [hkind, hleaf] at hother
  refine ⟨by simp [Op.required, hreq], fun hs hp he => ⟨?removed, ?kept⟩⟩
  case removed =>
    obtain ⟨t, hstep, htlb⟩ := step_perform_tlb [e] hop hs hp
    exact ⟨t, hstep, by simp [htlb, Op.mem_keptAt]⟩
  case kept =>
    obtain ⟨t, hstep, htlb⟩ := step_perform_tlb [] hop hs hp
    exact ⟨t, hstep, by simp [htlb, Op.mem_keptAt, he, hreq]⟩

end Sys2Proof.Machine

/-! What each path through the chain over the Exception levels answers, and the comparison of the two variants
(R59). -/
namespace Sys2Proof.Machine

/-! ### The required set and the waits do not read `attr` -/

/-- `ReqPred` does not read `attr` (R59, R97). -/
theorem Op.reqPred_withAttr (s : State) (op : Op) (attr : TlbiAttr) (a : Agent) :
    ({ op with attr := attr } : Op).reqPred s a = op.reqPred s a := rfl

theorem Op.required_withAttr (s : State) (op : Op) (attr : TlbiAttr) (a : Agent) :
    ({ op with attr := attr } : Op).required s a = op.required s a := by
  simp only [Op.required, Op.reqPred_withAttr]

theorem Op.waitsFor_withAttr (s : State) (op : Op) (attr : TlbiAttr) (a : Agent) :
    ({ op with attr := attr } : Op).waitsFor s a = op.waitsFor s a := by
  funext m
  simp only [Op.waitsFor, Op.reqPred_withAttr]

theorem Op.newWaits_withAttr (s : State) (op : Op) (attr : TlbiAttr) (a : Agent) :
    ({ op with attr := attr } : Op).newWaits s a = op.newWaits s a := by
  simp only [Op.newWaits, Op.waitsFor_withAttr]

/-! ### The paths of the chain that answer a next state -/

/-- At EL2, and at EL3 with EL2 enabled, the chain issues and advances the `pc` (R112, R113). -/
theorem tlbiByEL_of_issues {attr : TlbiAttr} {rt : Nat} {w : InstrWord} {s : State}
    (h : issues s.cfg s.pe.ctl) : tlbiByEL attr rt w s = issueAndAdvance attr (s.pe.readX rt) s := by
  rcases h with hel | ⟨hel, hen⟩
  · simp only [tlbiByEL, hel]
  · simp only [tlbiByEL, hel, hen, if_true]

/-- At EL3 with EL2 not enabled the chain advances the `pc` alone (R18, R113). -/
theorem tlbiByEL_of_el3_without_el2 {attr : TlbiAttr} {rt : Nat} {w : InstrWord} {s : State}
    (hel : s.pe.ctl.el = .el3) (hen : el2Enabled s.cfg s.pe.ctl = false) :
    tlbiByEL attr rt w s = advancePc s := by
  simp [tlbiByEL, hel, hen]

/-- The issue answers a next state where the target Security state has a value and the `pc` does not wrap. -/
theorem issueAndAdvance_eq_next {attr : TlbiAttr} {v : Word} {s : State} {ss : SecurityState}
    (hss : targetSS s.cfg s.pe.ctl = some ss) (hp : s.pe.pc.toNat + 4 < 2 ^ 64) :
    issueAndAdvance attr v s = .next (s.addOp (issueRecord s attr ss v)).withNextPc := by
  simp only [issueAndAdvance, hss]
  exact advancePc_eq_next hp

/-- Where the base form and `FEAT_XS` are implemented, so is the nXS form (R91). -/
theorem implemented_nxs_of_base {cfg : Config} {rt : Nat} (hxs : cfg.featXS = true)
    (h : implemented cfg (.tlbiRipas2le1os rt) = true) :
    implemented cfg (.tlbiRipas2le1osnxs rt) = true := by
  simp only [implemented] at h ⊢
  rw [h, hxs, Bool.and_self]

/-- Settles O22: no part of `ReqPred` reads `attr`, and both instructions run one chain, which passes `attr` to
the issued record alone. -/
theorem bothVariantsInvalidateTheSame : Obligations.BothVariantsInvalidateTheSame := by
  refine ⟨fun s op attr a => ⟨Op.required_withAttr s op attr a, Op.newWaits_withAttr s op attr a⟩, ?_⟩
  intro s rt t hxs hbase
  obtain ⟨himpl, hp, hpath⟩ := exec_next hbase
  rw [exec_of_implemented (implemented_nxs_of_base hxs himpl)]
  rcases hpath with ⟨hiss, ss, hss, rfl⟩ | ⟨hel, hen, rfl⟩
  · refine .inr ⟨issueRecord s .allAttr ss (s.pe.readX rt), rfl, rfl, ?_⟩
    rw [tlbiByEL_of_issues hiss, issueAndAdvance_eq_next hss hp]
    rfl
  · refine .inl ⟨?_, State.withNextPc_ops s⟩
    rw [tlbiByEL_of_el3_without_el2 hel hen, advancePc_eq_next hp]

end Sys2Proof.Machine

/-! The seven fields of the operand put together (R75). -/
namespace Sys2Proof.Machine

/-- The bits from `lo` up are a field of `len` bits at `lo` and the bits above that field. -/
theorem shiftRight_toNat_eq_field_add (v : Word) (lo len : Nat) :
    v.toNat >>> lo = (v.extractLsb' lo len).toNat + 2 ^ len * (v.toNat >>> (lo + len)) := by
  rw [BitVec.extractLsb'_toNat, Nat.shiftRight_add, Nat.shiftRight_eq_div_pow (v.toNat >>> lo) len,
    Nat.mod_add_div]

/-- `NS` is the top bit: nothing of the operand stands above it. -/
theorem shiftRight_63_toNat_eq_operandNS (v : Word) : v.toNat >>> 63 = (operandNS v).toNat := by
  have hlt : v.toNat / 2 ^ 63 < 2 := by omega
  rw [operandNS, BitVec.getLsbD, Nat.toNat_testBit, Nat.mod_eq_of_lt hlt, Nat.shiftRight_eq_div_pow]

/-- Settles O6, by taking the fields off the word one after another from bit 0; each begins where the one below it
ends, and `NS` is what remains. -/
theorem operandFieldsCoverTheWord : Obligations.OperandFieldsCoverTheWord := by
  intro v
  have hBaseADDR : v.toNat >>> 0 = (operandBaseADDR v).toNat + 2 ^ 37 * (v.toNat >>> 37) :=
    shiftRight_toNat_eq_field_add v 0 37
  have hTTL : v.toNat >>> 37 = (operandTTL v).toNat + 2 ^ 2 * (v.toNat >>> 39) :=
    shiftRight_toNat_eq_field_add v 37 2
  have hNUM : v.toNat >>> 39 = (operandNUM v).toNat + 2 ^ 5 * (v.toNat >>> 44) :=
    shiftRight_toNat_eq_field_add v 39 5
  have hSCALE : v.toNat >>> 44 = (operandSCALE v).toNat + 2 ^ 2 * (v.toNat >>> 46) :=
    shiftRight_toNat_eq_field_add v 44 2
  have hTG : v.toNat >>> 46 = (operandTG v).toNat + 2 ^ 2 * (v.toNat >>> 48) :=
    shiftRight_toNat_eq_field_add v 46 2
  have hRes0 : v.toNat >>> 48 = (operandRes0 v).toNat + 2 ^ 15 * (v.toNat >>> 63) :=
    shiftRight_toNat_eq_field_add v 48 15
  have hNS : v.toNat >>> 63 = (operandNS v).toNat := shiftRight_63_toNat_eq_operandNS v
  rw [Nat.shiftRight_zero, hTTL, hNUM, hSCALE, hTG, hRes0, hNS] at hBaseADDR
  rw [hBaseADDR]
  ring

end Sys2Proof.Machine

/-! The encodings that are illegal in a state: an absent feature, and EL0 and EL1 (R83, R109, R111). -/
namespace Sys2Proof.Machine

/-- The features the base form needs (R91). -/
theorem implemented_base_iff (cfg : Config) (rt : Nat) :
    implemented cfg (.tlbiRipas2le1os rt) = true ↔ cfg.featTLBIRANGE = true ∧ cfg.featTLBIOS = true := by
  simp only [implemented, Bool.and_eq_true]

/-- The features the nXS form needs (R91). -/
theorem implemented_nxs_iff (cfg : Config) (rt : Nat) :
    implemented cfg (.tlbiRipas2le1osnxs rt) = true ↔
      cfg.featTLBIRANGE = true ∧ cfg.featTLBIOS = true ∧ cfg.featXS = true := by
  simp only [implemented, Bool.and_eq_true, and_assoc]

/-- Without `FEAT_TLBIRANGE` or `FEAT_TLBIOS` neither form is implemented (R83, R91). -/
theorem implemented_eq_false_of_absent {cfg : Config} (h : cfg.featTLBIRANGE = false ∨ cfg.featTLBIOS = false)
    (i : Instr) : implemented cfg i = false := by
  cases i with
  | tlbiRipas2le1os rt => rcases h with h | h <;> simp [implemented, h]
  | tlbiRipas2le1osnxs rt => rcases h with h | h <;> simp [implemented, h]

/-- Without `FEAT_XS` the nXS form is not implemented (R83, R91). -/
theorem implemented_nxs_eq_false {cfg : Config} (h : cfg.featXS = false) (rt : Nat) :
    implemented cfg (.tlbiRipas2le1osnxs rt) = false := by
  rw [implemented, h, Bool.and_false]

/-- At EL0 the chain is undefined (R109). -/
theorem tlbiByEL_of_el0 {attr : TlbiAttr} {rt : Nat} {w : InstrWord} {s : State} (hel : s.pe.ctl.el = .el0) :
    tlbiByEL attr rt w s = .fault (.undefined s.self w s.pe.pc) := by
  simp only [tlbiByEL, hel, raiseUndefined]

/-- At EL1 the chain traps to EL2 where EL2 is enabled and `NV` set, and is undefined otherwise (R111). -/
theorem tlbiByEL_of_el1 {attr : TlbiAttr} {rt : Nat} {w : InstrWord} {s : State} (hel : s.pe.ctl.el = .el1) :
    tlbiByEL attr rt w s =
      if el2Enabled s.cfg s.pe.ctl && nvEff s.cfg s.pe.ctl then
        .fault (.systemAccessTrap .el2 0x18 s.self w s.pe.pc)
      else .fault (.undefined s.self w s.pe.pc) := by
  simp only [tlbiByEL, hel, raiseUndefined, raiseSystemAccessTrap]

/-- At EL0 every instruction is undefined, implemented or not (R83, R109). -/
theorem exec_of_el0 {s : State} (hel : s.pe.ctl.el = .el0) (i : Instr) :
    exec i s = .fault (.undefined s.self (encode i) s.pe.pc) := by
  cases hi : implemented s.cfg i with
  | false => exact exec_of_not_implemented hi
  | true => exact (exec_of_implemented hi).trans (tlbiByEL_of_el0 hel)

/-- At EL1 every instruction is undefined or trapped to EL2, implemented or not (R83, R111). -/
theorem exec_of_el1 {s : State} (hel : s.pe.ctl.el = .el1) (i : Instr) :
    exec i s = .fault (.undefined s.self (encode i) s.pe.pc) ∨
      exec i s = .fault (.systemAccessTrap .el2 0x18 s.self (encode i) s.pe.pc) := by
  cases hi : implemented s.cfg i with
  | false => exact .inl (exec_of_not_implemented hi)
  | true =>
    rw [exec_of_implemented hi, tlbiByEL_of_el1 hel]
    split
    · exact .inr rfl
    · exact .inl rfl

/-- Settles O27: an absent feature stops the instruction before the chain over the Exception levels, and the chain
itself raises one of the two faults at EL0 and at EL1. -/
theorem illegalEncodingsAreUndefined : Obligations.IllegalEncodingsAreUndefined := by
  intro s rt
  refine ⟨?absent, ?absentXS, implemented_base_iff s.cfg rt, implemented_nxs_iff s.cfg rt, exec_of_el0,
    exec_of_el1⟩
  case absent =>
    intro h
    have hundef := fun i => exec_of_not_implemented (implemented_eq_false_of_absent h i)
    exact ⟨hundef _, hundef _⟩
  case absentXS => exact fun h => exec_of_not_implemented (implemented_nxs_eq_false h rt)

end Sys2Proof.Machine

/-! The unpredictable ranges of R105, and what a required entry shares with its operation (R95, R101, R103). -/
namespace Sys2Proof.Machine

/-! ### The granule and the rows of R105 -/

theorem granuleOfTG_eq_g4K (tg : BitVec 2) : granuleOfTG tg = some .g4K ↔ tg = 0b01#2 := by
  revert tg
  decide

theorem granuleOfTG_eq_g16K (tg : BitVec 2) : granuleOfTG tg = some .g16K ↔ tg = 0b10#2 := by
  revert tg
  decide

theorem granuleOfTG_eq_g64K (tg : BitVec 2) : granuleOfTG tg = some .g64K ↔ tg = 0b11#2 := by
  revert tg
  decide

/-- A row of R105 holds: its granule, its hint, and a bit it names is set in the start address. -/
theorem rangeUnpredictable_iff (g : Granule) (ttl : BitVec 2) (base : Nat) :
    rangeUnpredictable g ttl base = true ↔
      (g = .g4K ∧ ttl = 0b01#2 ∧ base / 2 ^ 12 % 2 ^ 18 ≠ 0) ∨
      (g = .g4K ∧ ttl = 0b10#2 ∧ base / 2 ^ 12 % 2 ^ 9 ≠ 0) ∨
      (g = .g16K ∧ ttl = 0b10#2 ∧ base / 2 ^ 14 % 2 ^ 11 ≠ 0) ∨
      (g = .g64K ∧ ttl = 0b01#2 ∧ base / 2 ^ 16 % 2 ^ 26 ≠ 0) ∨
      (g = .g64K ∧ ttl = 0b10#2 ∧ base / 2 ^ 16 % 2 ^ 13 ≠ 0) := by
  simp only [rangeUnpredictable, unpredictableRows, natBits, List.any_cons, List.any_nil, Bool.or_false,
    Bool.or_eq_true, Bool.and_eq_true, beq_iff_eq, bne_iff_ne, and_assoc, eq_comm (b := g), eq_comm (b := ttl)]

/-- `Unpredictable(op)` speaks of the granule the operand names, so of none where `TG` is reserved (R105). -/
theorem Op.unpredictable_iff (cfg : Config) (op : Op) :
    op.unpredictable cfg = true ↔
      ∃ g, granuleOfTG (operandTG op.operand) = some g ∧
        rangeUnpredictable g (operandTTL op.operand) (rangeBase cfg op.ds g op.operand) = true :=
  Option.any_eq_true _ _

/-- The reserved granule has no row (R105). -/
theorem Op.unpredictable_of_reserved {op : Op} (cfg : Config) (h : operandTG op.operand = 0b00#2) :
    op.unpredictable cfg = false := by
  rw [Op.unpredictable, Op.granule, (granuleOfTG_eq_none _).mpr h, Option.any_none]

/-- Settles O13: the named granule is distributed over the rows, each row fixes it, and a granule is one value of
`TG`. -/
theorem unpredictableRangeTable : Obligations.UnpredictableRangeTable := by
  intro cfg op
  refine ⟨Op.unpredictable_of_reserved cfg, ?_⟩
  rw [Op.unpredictable_iff]
  simp only [rangeUnpredictable_iff, and_or_left, exists_or]
  simp only [and_left_comm, exists_eq_left, granuleOfTG_eq_g4K, granuleOfTG_eq_g16K, granuleOfTG_eq_g64K]

/-! ### What a required entry shares with its operation -/

/-- The required entries are the agent's own that meet `ReqPred` (R97). -/
theorem Op.mem_required {s : State} {op : Op} {a : Agent} {e : TlbEntry} :
    e ∈ op.required s a ↔ e ∈ s.tlb a ∧ op.reqPred s a e = true :=
  List.mem_filter

/-- Regime, Security state, VMID and granule of a required entry (R95, R101, R103). -/
theorem Op.matches_of_mem_required {s : State} {op : Op} {a : Agent} {e : TlbEntry} (h : e ∈ op.required s a) :
    e.regime = .el10 ∧ e.ss = op.ss ∧ e.vmid = op.vmid ∧
      granuleOfTG (operandTG op.operand) = some e.granule := by
  obtain ⟨_, hreq⟩ := Op.mem_required.mp h
  obtain ⟨_, _, hregime, hss, _, hvmid, hgranule, _⟩ := (Op.reqPred_iff s op a e).mp hreq
  exact ⟨hregime, hss, hvmid, hgranule.symm⟩

/-- Settles O17: whichever of the four differs, a required entry has it equal. -/
theorem requiredEntryMatchesTheOperation : Obligations.RequiredEntryMatchesTheOperation := by
  intro s op a e hdiffers hmem
  obtain ⟨hregime, hss, hvmid, hgranule⟩ := Op.matches_of_mem_required hmem
  rcases hdiffers with hother | hne | hne | hne
  · exact absurd (hregime.symm.trans hother) (by decide)
  · exact hne hss
  · exact hne hvmid
  · exact hne hgranule

end Sys2Proof.Machine

/-! The encoding: a row of the decoder's table is an encoded instruction, and the fields of a System instruction word
(R71 to R74). -/
namespace Sys2Proof.Machine

/-! ### The rows of the match and mask table are the encoded words -/

/-- The register field is the part of a word that the mask of R74 leaves out. -/
theorem extractRt_setWidth (w : InstrWord) : (w.extractLsb' 0 5).setWidth 32 = w &&& ~~~0xFFFFFFE0#32 := by
  ext i hi
  interval_cases i <;> simp

/-- A word is what the mask of R74 keeps, with the register field in bits [4:0]. -/
theorem and_mask_or_rt (w : InstrWord) :
    (w &&& 0xFFFFFFE0#32) ||| (w.extractLsb' 0 5).setWidth 32 = w := by
  rw [extractRt_setWidth, ← BitVec.and_or_distrib_left, BitVec.or_not_self, BitVec.and_allOnes]

/-- The words of `TLBI RIPAS2LE1OS` are those of its row: the pattern, and a register number below it. -/
theorem systemWord_base (rt : BitVec 5) :
    systemWord 0b01#2 0b100#3 0b1000#4 0b0100#4 0b111#3 rt = 0xD50C84E0#32 ||| rt.setWidth 32 := by
  revert rt
  decide

/-- The words of `TLBI RIPAS2LE1OSNXS` are those of its row. -/
theorem systemWord_nxs (rt : BitVec 5) :
    systemWord 0b01#2 0b100#3 0b1001#4 0b0100#4 0b111#3 rt = 0xD50C94E0#32 ||| rt.setWidth 32 := by
  revert rt
  decide

/-- A row's pattern has no bit in the register field, so a word meets the row exactly when it is the pattern with
its own register field below it. -/
theorem and_mask_eq_iff {p : InstrWord} (hp : p &&& 0xFFFFFFE0#32 = p) (w : InstrWord) :
    w &&& 0xFFFFFFE0#32 = p ↔ p ||| (w.extractLsb' 0 5).setWidth 32 = w := by
  constructor
  · rintro rfl
    exact and_mask_or_rt w
  · intro h
    have hclear : ~~~0xFFFFFFE0#32 &&& 0xFFFFFFE0#32 = 0#32 := by decide
    calc w &&& 0xFFFFFFE0#32
        = (p ||| w &&& ~~~0xFFFFFFE0#32) &&& 0xFFFFFFE0#32 := by rw [← extractRt_setWidth, h]
      _ = p := by rw [BitVec.and_or_distrib_right, hp, BitVec.and_assoc, hclear, BitVec.and_zero, BitVec.or_zero]

/-- The register number a word names has 5 bits. -/
theorem ofNat_rtOfWord (w : InstrWord) : BitVec.ofNat 5 (rtOfWord w) = w.extractLsb' 0 5 := by
  rw [rtOfWord, BitVec.ofNat_toNat, BitVec.setWidth_eq]

theorem encode_base_rtOfWord_eq_iff (w : InstrWord) :
    encode (.tlbiRipas2le1os (rtOfWord w)) = w ↔ w &&& 0xFFFFFFE0#32 = 0xD50C84E0#32 := by
  rw [encode, systemWord_base, ofNat_rtOfWord, and_mask_eq_iff (by decide)]

theorem encode_nxs_rtOfWord_eq_iff (w : InstrWord) :
    encode (.tlbiRipas2le1osnxs (rtOfWord w)) = w ↔ w &&& 0xFFFFFFE0#32 = 0xD50C94E0#32 := by
  rw [encode, systemWord_nxs, ofNat_rtOfWord, and_mask_eq_iff (by decide)]

/-- The two rows of R74, tried in order. -/
theorem decodeWord_eq (w : InstrWord) :
    decodeWord w =
      if w &&& 0xFFFFFFE0#32 = 0xD50C84E0#32 then some (.tlbiRipas2le1os (rtOfWord w))
      else if w &&& 0xFFFFFFE0#32 = 0xD50C94E0#32 then some (.tlbiRipas2le1osnxs (rtOfWord w))
      else none := by
  simp only [decodeWord, opcodeRows, List.findSome?_cons, List.findSome?_nil, OpcodeRow.read]
  split_ifs <;> rfl

theorem rtOfWord_lt (w : InstrWord) : rtOfWord w < 32 := (w.extractLsb' 0 5).isLt

/-- The encoded word carries the register number in its register field (R73). -/
theorem rtOfWord_encode {i : Instr} (h : i.wellFormed = true) : rtOfWord (encode i) = i.rt := by
  cases i with
  | tlbiRipas2le1os rt =>
    obtain ⟨_, _, _, _, hrt, _⟩ := Laws.WordFields.tlbiRipas2le1os rt h
    exact hrt
  | tlbiRipas2le1osnxs rt =>
    obtain ⟨_, _, _, _, hrt, _⟩ := Laws.WordFields.tlbiRipas2le1osnxs rt h
    exact hrt

/-- The decoder reads an instruction from exactly its own word. -/
theorem decodeWord_eq_some_iff (w : InstrWord) (i : Instr) :
    decodeWord w = some i ↔ i.wellFormed = true ∧ encode i = w := by
  rw [decodeWord_eq]
  constructor
  · intro h
    split_ifs at h with hbase hnxs
    · cases h
      exact ⟨decide_eq_true (rtOfWord_lt w), (encode_base_rtOfWord_eq_iff w).mpr hbase⟩
    · cases h
      exact ⟨decide_eq_true (rtOfWord_lt w), (encode_nxs_rtOfWord_eq_iff w).mpr hnxs⟩
  · rintro ⟨hwf, rfl⟩
    have hrt := rtOfWord_encode hwf
    cases i with
    | tlbiRipas2le1os rt =>
      rw [if_pos ((encode_base_rtOfWord_eq_iff _).mp (by rw [hrt, Instr.rt])), hrt, Instr.rt]
    | tlbiRipas2le1osnxs rt =>
      have hnxs := (encode_nxs_rtOfWord_eq_iff (encode (.tlbiRipas2le1osnxs rt))).mp (by rw [hrt, Instr.rt])
      rw [hnxs, if_neg (by decide), if_pos rfl, hrt, Instr.rt]

/-- Bytes after the first four are left as they are. -/
theorem decode_bytesOfWord_append {w : InstrWord} {i : Instr} (h : decodeWord w = some i) (rest : List Byte) :
    decode (bytesOfWord w ++ rest) = .instr i rest := by
  simp only [bytesOfWord, List.cons_append, List.nil_append, decode, wordOfBytes_bytesOfWord, h]

/-- Settles O1: the four bytes join to the encoded word, which the decoder reads back. -/
theorem decodeInvertsEncode : Obligations.DecodeInvertsEncode := by
  intro i rest hwf
  exact decode_bytesOfWord_append ((decodeWord_eq_some_iff _ i).mpr ⟨hwf, rfl⟩) rest

/-- Settles O2: an instruction is read from its own word alone, and a word is read as one instruction. -/
theorem encodeInvertsDecode : Obligations.EncodeInvertsDecode := by
  intro w i h
  obtain ⟨hwf, henc⟩ := (decodeWord_eq_some_iff w i).mp h
  refine ⟨hwf, henc, fun j hj hjw => ?_⟩
  have hdecode : decodeWord w = some j := (decodeWord_eq_some_iff w j).mpr ⟨hj, hjw⟩
  exact Option.some.inj (hdecode.symm.trans h)

/-! ### The fields of a System instruction word -/

/-- A slice of a word is one vector above another exactly when its two parts are. -/
theorem extractLsb'_eq_append_iff {m n : Nat} (w : InstrWord) (lo : Nat) (x : BitVec m) (y : BitVec n) :
    w.extractLsb' lo (m + n) = x ++ y ↔ w.extractLsb' (lo + n) m = x ∧ w.extractLsb' lo n = y := by
  rw [← BitVec.extractLsb'_append_extractLsb'_eq_extractLsb' rfl]
  constructor
  · intro h
    have hx := congrArg (BitVec.extractLsb' n m) h
    have hy := congrArg (BitVec.extractLsb' 0 n) h
    simp only [BitVec.extractLsb'_append_eq_left, BitVec.extractLsb'_append_eq_right] at hx hy
    exact ⟨hx, hy⟩
  · rintro ⟨rfl, rfl⟩
    rfl

/-- A System instruction word has the fields it was put together from, each at its place, and no word else has
them (R74). -/
theorem systemWord_eq_iff (w : InstrWord) (op0 : BitVec 2) (op1 : BitVec 3) (crn crm : BitVec 4) (op2 : BitVec 3)
    (rt : BitVec 5) :
    systemWord op0 op1 crn crm op2 rt = w ↔
      w.extractLsb' 22 10 = 0b1101010100#10 ∧ w.extractLsb' 21 1 = 0#1 ∧ w.extractLsb' 19 2 = op0 ∧
        w.extractLsb' 16 3 = op1 ∧ w.extractLsb' 12 4 = crn ∧ w.extractLsb' 8 4 = crm ∧
        w.extractLsb' 5 3 = op2 ∧ w.extractLsb' 0 5 = rt := by
  conv_lhs => rw [eq_comm, ← BitVec.extractLsb'_eq_self (x := w), systemWord]
  rw [extractLsb'_eq_append_iff (m := 27) (n := 5), extractLsb'_eq_append_iff (m := 24) (n := 3),
    extractLsb'_eq_append_iff (m := 20) (n := 4), extractLsb'_eq_append_iff (m := 16) (n := 4),
    extractLsb'_eq_append_iff (m := 13) (n := 3), extractLsb'_eq_append_iff (m := 11) (n := 2),
    extractLsb'_eq_append_iff (m := 10) (n := 1)]
  simp only [and_assoc, Nat.zero_add, Nat.reduceAdd]

/-- The register number is the value of the register field, where it is in the field's range. -/
theorem extractRt_eq_ofNat_iff (w : InstrWord) (t : Nat) :
    (t < 32 ∧ w.extractLsb' 0 5 = BitVec.ofNat 5 t) ↔ t = (w.extractLsb' 0 5).toNat := by
  constructor
  · rintro ⟨hlt, h⟩
    rw [h, BitVec.toNat_ofNat, Nat.mod_eq_of_lt hlt]
  · rintro rfl
    exact ⟨rtOfWord_lt w, (ofNat_rtOfWord w).symm⟩

/-- Settles O3: to decode is to be the encoded word, and that is to have its fields. -/
theorem decoderReadsSelectingFields : Obligations.DecoderReadsSelectingFields := by
  intro w t
  simp only [decodeWord_eq_some_iff, Instr.wellFormed, decide_eq_true_eq, encode, systemWord_eq_iff,
    ← extractRt_eq_ofNat_iff]
  exact ⟨by tauto, by tauto⟩

/-- Settles O4: four bytes are joined to a word, and the word is compared with the two rows of R74. -/
theorem sampleWordsDecode : Obligations.SampleWordsDecode := by
  unfold Obligations.SampleWordsDecode
  decide

end Sys2Proof.Machine

/-! Everything one step can do, as a move of one agent: the relation `Move` and, for each part of the state, what a
move leaves of it. -/
namespace Sys2Proof.Machine

/-! ### What the updates leave of a PE -/

@[simp] theorem State.setTlb_pes_length (s : State) (a : Agent) (l : List TlbEntry) :
    (s.setTlb a l).pes.length = s.pes.length := by
  cases a <;> simp [State.setTlb]

@[simp] theorem State.setTlb_smmus_length (s : State) (a : Agent) (l : List TlbEntry) :
    (s.setTlb a l).smmus.length = s.smmus.length := by
  cases a <;> simp [State.setTlb]

@[simp] theorem State.setTlb_peAt_x (s : State) (a : Agent) (l : List TlbEntry) (n : Nat) :
    ((s.setTlb a l).peAt n).x = (s.peAt n).x := by
  rw [State.peAt_setTlb]
  split <;> rfl

@[simp] theorem State.setTlb_peAt_pc (s : State) (a : Agent) (l : List TlbEntry) (n : Nat) :
    ((s.setTlb a l).peAt n).pc = (s.peAt n).pc := by
  rw [State.peAt_setTlb]
  split <;> rfl

@[simp] theorem State.setTlb_peAt_ctl (s : State) (a : Agent) (l : List TlbEntry) (n : Nat) :
    ((s.setTlb a l).peAt n).ctl = (s.peAt n).ctl := by
  rw [State.peAt_setTlb]
  split <;> rfl

@[simp] theorem State.setTlb_peAt_fault (s : State) (a : Agent) (l : List TlbEntry) (n : Nat) :
    ((s.setTlb a l).peAt n).fault = (s.peAt n).fault := by
  rw [State.peAt_setTlb]
  split <;> rfl

@[simp] theorem State.withNextPc_pes_length (s : State) : s.withNextPc.pes.length = s.pes.length := by
  simp [State.withNextPc]

@[simp] theorem State.withNextPc_peAt_x (s : State) (n : Nat) : (s.withNextPc.peAt n).x = (s.peAt n).x := by
  rw [State.peAt_withNextPc]
  split <;> rfl

@[simp] theorem State.withNextPc_peAt_ctl (s : State) (n : Nat) :
    (s.withNextPc.peAt n).ctl = (s.peAt n).ctl := by
  rw [State.peAt_withNextPc]
  split <;> rfl

@[simp] theorem State.withNextPc_peAt_fault (s : State) (n : Nat) :
    (s.withNextPc.peAt n).fault = (s.peAt n).fault := by
  rw [State.peAt_withNextPc]
  split <;> rfl

/-- The `pc` of another PE stays, and so does that of a PE there is not. -/
theorem State.withNextPc_peAt_pc (s : State) (n : Nat) :
    (s.withNextPc.peAt n).pc =
      if n = s.self ∧ n < s.pes.length then (s.peAt n).pc + 4#64 else (s.peAt n).pc := by
  rw [State.peAt_withNextPc]
  split <;> rfl

theorem State.withNextPc_pc_cases (s : State) (n : Nat) :
    (s.withNextPc.peAt n).pc = (s.peAt n).pc ∨
      (n = s.self ∧ (s.withNextPc.peAt n).pc = (s.peAt n).pc + 4#64) := by
  rw [State.withNextPc_peAt_pc]
  split
  · rename_i hn
    exact .inr ⟨hn.1, rfl⟩
  · exact .inl rfl

@[simp] theorem State.recordFault_pes_length (s : State) (f : Fault) :
    (s.recordFault f).pes.length = s.pes.length := by
  simp [State.recordFault]

@[simp] theorem State.recordFault_peAt_x (s : State) (f : Fault) (n : Nat) :
    ((s.recordFault f).peAt n).x = (s.peAt n).x := by
  rw [State.peAt_recordFault]
  split <;> rfl

@[simp] theorem State.recordFault_peAt_pc (s : State) (f : Fault) (n : Nat) :
    ((s.recordFault f).peAt n).pc = (s.peAt n).pc := by
  rw [State.peAt_recordFault]
  split <;> rfl

@[simp] theorem State.recordFault_peAt_ctl (s : State) (f : Fault) (n : Nat) :
    ((s.recordFault f).peAt n).ctl = (s.peAt n).ctl := by
  rw [State.peAt_recordFault]
  split <;> rfl

@[simp] theorem State.addOp_tlb (s : State) (op : Op) (a : Agent) : (s.addOp op).tlb a = s.tlb a := by
  cases a <;> rfl

/-! ### The access list replaced, and the perform step -/

/-- `InFlight` replaced: what the beginning and the completion of an access do. -/
def State.withInFlight (s : State) (l : List Access) : State := { s with inFlight := l }

@[simp] theorem State.withInFlight_cfg (s : State) (l : List Access) : (s.withInFlight l).cfg = s.cfg := rfl
@[simp] theorem State.withInFlight_pes (s : State) (l : List Access) : (s.withInFlight l).pes = s.pes := rfl
@[simp] theorem State.withInFlight_smmus (s : State) (l : List Access) : (s.withInFlight l).smmus = s.smmus := rfl
@[simp] theorem State.withInFlight_self (s : State) (l : List Access) : (s.withInFlight l).self = s.self := rfl
@[simp] theorem State.withInFlight_inFlight (s : State) (l : List Access) : (s.withInFlight l).inFlight = l := rfl
@[simp] theorem State.withInFlight_ops (s : State) (l : List Access) : (s.withInFlight l).ops = s.ops := rfl
@[simp] theorem State.withInFlight_mem (s : State) (l : List Access) : (s.withInFlight l).mem = s.mem := rfl
@[simp] theorem State.withInFlight_schedule (s : State) (l : List Access) :
    (s.withInFlight l).schedule = s.schedule := rfl
@[simp] theorem State.withInFlight_history (s : State) (l : List Access) :
    (s.withInFlight l).history = s.history := rfl
@[simp] theorem State.withInFlight_peAt (s : State) (l : List Access) (n : Nat) :
    (s.withInFlight l).peAt n = s.peAt n := rfl
@[simp] theorem State.withInFlight_tlb (s : State) (l : List Access) (a : Agent) :
    (s.withInFlight l).tlb a = s.tlb a := by cases a <;> rfl

/-- The perform step of R60 for operation `k` with the record `op`, at agent `a`. -/
def State.withPerform (s : State) (k : Nat) (op : Op) (a : Agent) (extra : List TlbEntry) : State :=
  { s.setTlb a (op.keptAt s a extra) with
    ops := s.ops.set k (op.afterPerform s a)
    history := s.history ++ [.performed k a (op.removedAt s a extra)] }

section
variable (s : State) (k : Nat) (op : Op) (a : Agent) (extra : List TlbEntry)

@[simp] theorem State.withPerform_cfg : (s.withPerform k op a extra).cfg = s.cfg := State.setTlb_cfg _ _ _
@[simp] theorem State.withPerform_self : (s.withPerform k op a extra).self = s.self := State.setTlb_self _ _ _
@[simp] theorem State.withPerform_inFlight : (s.withPerform k op a extra).inFlight = s.inFlight :=
  State.setTlb_inFlight _ _ _
@[simp] theorem State.withPerform_mem : (s.withPerform k op a extra).mem = s.mem := State.setTlb_mem _ _ _
@[simp] theorem State.withPerform_schedule : (s.withPerform k op a extra).schedule = s.schedule :=
  State.setTlb_schedule _ _ _
@[simp] theorem State.withPerform_pes_length : (s.withPerform k op a extra).pes.length = s.pes.length :=
  State.setTlb_pes_length _ _ _
@[simp] theorem State.withPerform_ops :
    (s.withPerform k op a extra).ops = s.ops.set k (op.afterPerform s a) := rfl
@[simp] theorem State.withPerform_history :
    (s.withPerform k op a extra).history = s.history ++ [.performed k a (op.removedAt s a extra)] := rfl
@[simp] theorem State.withPerform_peAt (n : Nat) :
    (s.withPerform k op a extra).peAt n = (s.setTlb a (op.keptAt s a extra)).peAt n := rfl

/-- The perform step drops entries from the agent's TLB and from no other. -/
theorem State.withPerform_tlb (b : Agent) :
    (s.withPerform k op a extra).tlb b = if b = a then op.keptAt s a extra else s.tlb b :=
  calc (s.withPerform k op a extra).tlb b
      = (s.setTlb a (op.keptAt s a extra)).tlb b := by cases b <;> rfl
    _ = _ := State.tlb_setTlb_filter s a b _

end

/-! ### The moves -/

/-- `s` as the next mover finds it: a move taken from the schedule, PE `n` the executing one (assumption 7). -/
def State.turn (s : State) (n : Nat) : State := { s with schedule := s.schedule.tail, self := n }

@[simp] theorem State.turn_cfg (s : State) (n : Nat) : (s.turn n).cfg = s.cfg := rfl
@[simp] theorem State.turn_pes (s : State) (n : Nat) : (s.turn n).pes = s.pes := rfl
@[simp] theorem State.turn_smmus (s : State) (n : Nat) : (s.turn n).smmus = s.smmus := rfl
@[simp] theorem State.turn_self (s : State) (n : Nat) : (s.turn n).self = n := rfl
@[simp] theorem State.turn_inFlight (s : State) (n : Nat) : (s.turn n).inFlight = s.inFlight := rfl
@[simp] theorem State.turn_ops (s : State) (n : Nat) : (s.turn n).ops = s.ops := rfl
@[simp] theorem State.turn_mem (s : State) (n : Nat) : (s.turn n).mem = s.mem := rfl
@[simp] theorem State.turn_schedule (s : State) (n : Nat) : (s.turn n).schedule = s.schedule.tail := rfl
@[simp] theorem State.turn_history (s : State) (n : Nat) : (s.turn n).history = s.history := rfl
@[simp] theorem State.turn_peAt (s : State) (n m : Nat) : (s.turn n).peAt m = s.peAt m := rfl
@[simp] theorem State.turn_pe (s : State) (n : Nat) : (s.turn n).pe = s.peAt n := rfl
@[simp] theorem State.turn_tlb (s : State) (n : Nat) (a : Agent) : (s.turn n).tlb a = s.tlb a := by cases a <;> rfl
@[simp] theorem State.turn_opComplete (s : State) (n k : Nat) : (s.turn n).opComplete k = s.opComplete k := rfl
@[simp] theorem Op.reqPred_turn (s : State) (n : Nat) (op : Op) : op.reqPred (s.turn n) = op.reqPred s := by
  funext a e
  exact Op.reqPred_congr op a e rfl fun _ => rfl

/-- Everything a move can do to the state `u` in which it is taken, by the event that names it. -/
inductive Move (u : State) : Event → State → Prop where
  /-- Nothing happens: a move that is not open, or one of a PE there is not. -/
  | closed (ev : Event) : Move u ev u
  /-- The PE advances its `pc` (R18). -/
  | advanced (hf : u.pe.fault = none) (hp : u.pe.pc.toNat + 4 < 2 ^ 64) : Move u (.pe u.self) u.withNextPc
  /-- The PE issues an operation and advances its `pc` (R94). -/
  | issued (attr : TlbiAttr) (v : Word) (ss : SecurityState) (hf : u.pe.fault = none)
      (hp : u.pe.pc.toNat + 4 < 2 ^ 64) (hi : issues u.cfg u.pe.ctl)
      (hss : targetSS u.cfg u.pe.ctl = some ss) :
      Move u (.pe u.self) (u.addOp (issueRecord u attr ss v)).withNextPc
  /-- The PE ends in a fault (R135). -/
  | faulted (f : Fault) (hf : u.pe.fault = none) : Move u (.pe u.self) (u.recordFault f)
  /-- An operation is performed at an agent (R60). -/
  | performed {k : Nat} {op : Op} {a : Agent} (extra : List TlbEntry) (hop : u.ops[k]? = some op)
      (hs : a ∈ op.scope) (hp : a ∉ op.performed) : Move u (.perform k a extra) (u.withPerform k op a extra)
  /-- An access completes (R39). -/
  | accessCompleted {i : Nat} {m : Access} (hm : u.inFlight[i]? = some m) :
      Move u (.completeAccess i) (u.withInFlight (u.inFlight.set i { m with complete := true }))
  /-- An access begins (R39). -/
  | accessBegun {m : Access} (ha : u.hasAgent m.agent = true) (hm : ∀ e ∈ m.uses, e.wf u.cfg = true) :
      Move u (.beginAccess m) (u.withInFlight (u.inFlight ++ [{ m with complete := false }]))
  /-- Entries are dropped from a TLB (R38). -/
  | evicted (a : Agent) (entries : List TlbEntry) :
      Move u (.evict a entries) (u.setTlb a ((u.tlb a).filter fun e => !entries.contains e))
  /-- An entry is added to a TLB (R38). -/
  | filled {a : Agent} {e : TlbEntry} (hw : e.wf u.cfg = true) (hn : e ∉ u.tlb a) :
      Move u (.fill a e) (u.setTlb a (u.tlb a ++ [e]))

/-- The agents that are not PEs make the moves of `Move`. -/
theorem move_agentMove (u : State) (ev : Event) : Move u ev (u.agentMove ev) := by
  cases ev with
  | pe n => exact .closed _
  | perform k a extra =>
    rcases State.performAt_cases u k a extra with h | ⟨op, hop, hs, hp, h⟩
    · rw [State.agentMove, h]; exact .closed _
    · rw [State.agentMove, h]; exact .performed extra hop hs hp
  | completeAccess i =>
    rcases State.completeAccess_cases u i with h | ⟨m, hm, h⟩
    · rw [State.agentMove, h]; exact .closed _
    · rw [State.agentMove, h]; exact .accessCompleted hm
  | beginAccess m =>
    rcases State.beginAccess_cases u m with h | ⟨ha, hm, h⟩
    · rw [State.agentMove, h]; exact .closed _
    · rw [State.agentMove, h]; exact .accessBegun ha hm
  | evict a entries => exact .evicted a entries
  | fill a e =>
    rcases State.fill_cases u a e with h | ⟨hw, hn, h⟩
    · rw [State.agentMove, h]; exact .closed _
    · rw [State.agentMove, h]; exact .filled hw hn

/-- Where no operation was issued and no access changed, noting changes nothing. -/
theorem State.noted_eq_of_eq {u v : State} (ho : v.ops = u.ops) (hi : v.inFlight = u.inFlight) :
    State.noted u v = v :=
  congrArg (fun h => { v with history := h }) (State.noted_history_of_eq ho hi)

/-- A PE makes the moves of `Move`. -/
theorem move_of_stepPE {u t : State} (h : stepPE u = .next t) :
    ∃ v, Move u (.pe u.self) v ∧ t = State.noted u v := by
  obtain ⟨hf, ⟨i, v, _, hx, rfl⟩ | ⟨f, _, rfl⟩⟩ := stepPE_next h
  · refine ⟨v, ?_, rfl⟩
    obtain ⟨_, hp, ⟨hi, ss, hss, rfl⟩ | ⟨_, _, rfl⟩⟩ := exec_next hx
    · exact .issued _ _ ss hf hp hi hss
    · exact .advanced hf hp
  · exact ⟨_, .faulted f hf, (State.noted_eq_of_eq rfl rfl).symm⟩

theorem State.turn_of_nil {s : State} (hs : s.schedule = []) : s.turn s.self = s := by
  cases s
  cases hs
  rfl

theorem State.turn_of_cons {s : State} {ev : Event} {rest : List Event} (hs : s.schedule = ev :: rest) (n : Nat) :
    s.turn n = { s with schedule := rest, self := n } := by
  rw [State.turn, hs, List.tail_cons]

/-- Every step is a move, noted in the history: of PE `self` where the schedule is empty, and else of the event at
its head. -/
theorem step_move {s t : State} (h : step s = .next t) :
    ∃ n ev v, (n = s.self ∨ n < s.pes.length) ∧
      ((s.schedule = [] ∧ ev = .pe n) ∨ ∃ rest, s.schedule = ev :: rest) ∧
      Move (s.turn n) ev v ∧ t = State.noted (s.turn n) v := by
  rcases step_cases h with ⟨hs, h⟩ | ⟨ev, rest, hs, h⟩
  · rw [← State.turn_of_nil hs] at h
    obtain ⟨v, hv, ht⟩ := move_of_stepPE h
    exact ⟨s.self, _, v, .inl rfl, .inl ⟨hs, rfl⟩, hv, ht⟩
  rcases h with ⟨n, rfl, hn, h⟩ | ⟨n, rfl, _, rfl⟩ | ⟨_, rfl⟩
  · rw [← State.turn_of_cons hs] at h
    obtain ⟨v, hv, ht⟩ := move_of_stepPE h
    exact ⟨n, _, v, .inr hn, .inr ⟨rest, hs⟩, hv, ht⟩
  · rw [← State.turn_of_cons hs s.self]
    exact ⟨s.self, _, _, .inl rfl, .inr ⟨rest, hs⟩, .closed _, (State.noted_eq_of_eq rfl rfl).symm⟩
  · rw [← State.turn_of_cons hs s.self]
    exact ⟨s.self, _, _, .inl rfl, .inr ⟨rest, hs⟩, move_agentMove _ ev, rfl⟩

/-! ### What every move leaves -/

section
variable {u v : State} {ev : Event}

theorem Move.cfg_eq (h : Move u ev v) : v.cfg = u.cfg := by cases h <;> simp
theorem Move.mem_eq (h : Move u ev v) : v.mem = u.mem := by cases h <;> simp
theorem Move.self_eq (h : Move u ev v) : v.self = u.self := by cases h <;> simp
theorem Move.schedule_eq (h : Move u ev v) : v.schedule = u.schedule := by cases h <;> simp
theorem Move.pes_length_eq (h : Move u ev v) : v.pes.length = u.pes.length := by cases h <;> simp
theorem Move.peAt_x_eq (h : Move u ev v) (n : Nat) : (v.peAt n).x = (u.peAt n).x := by cases h <;> simp
theorem Move.peAt_ctl_eq (h : Move u ev v) (n : Nat) : (v.peAt n).ctl = (u.peAt n).ctl := by cases h <;> simp

/-- A `pc` moves by 4, and only where its PE has not faulted and takes the move. -/
theorem Move.peAt_pc (h : Move u ev v) (n : Nat) :
    (v.peAt n).pc = (u.peAt n).pc ∨
      (n = u.self ∧ ev = .pe n ∧ (u.peAt n).fault = none ∧ (u.peAt n).pc.toNat + 4 < 2 ^ 64 ∧
        (v.peAt n).pc = (u.peAt n).pc + 4#64) := by
  cases h with
  | advanced hf hp =>
    rcases u.withNextPc_pc_cases n with hpc | ⟨rfl, hpc⟩
    · exact .inl hpc
    · exact .inr ⟨rfl, rfl, hf, hp, hpc⟩
  | issued attr w ss hf hp =>
    rcases (u.addOp (issueRecord u attr ss w)).withNextPc_pc_cases n with hpc | ⟨rfl, hpc⟩
    · exact .inl hpc
    · exact .inr ⟨rfl, rfl, hf, hp, hpc⟩
  | _ => simp

/-- A recorded fault stays, and so does the `pc` of its PE. -/
theorem Move.peAt_fault (h : Move u ev v) {n : Nat} {f : Fault} (hf : (u.peAt n).fault = some f) :
    (v.peAt n).fault = some f ∧ (v.peAt n).pc = (u.peAt n).pc := by
  refine ⟨?fault, ?pc⟩
  case pc =>
    rcases h.peAt_pc n with hpc | ⟨_, _, hnone, _⟩
    · exact hpc
    · rw [hf] at hnone; cases hnone
  case fault =>
    cases h with
    | faulted f' hnone =>
      have hne : n ≠ u.self := by
        rintro rfl
        rw [State.pe, hf] at hnone
        cases hnone
      rw [State.peAt_recordFault, if_neg fun hn => hne hn.1, hf]
    | _ => simpa using hf

/-- A move keeps every access with what it used; it completes one only by the move that names it. -/
theorem Move.inFlight_getElem? (h : Move u ev v) {i : Nat} {m : Access} (hm : u.inFlight[i]? = some m) :
    ∃ m', v.inFlight[i]? = some m' ∧ (m' = m ∨ (m' = { m with complete := true } ∧ ev = .completeAccess i)) := by
  cases h with
  | accessCompleted hj =>
    rename_i j m'
    by_cases hij : j = i
    · subst hij
      cases Option.some.inj (hj.symm.trans hm)
      obtain ⟨hlt, _⟩ := List.getElem?_eq_some_iff.mp hm
      exact ⟨_, by simp [hlt], .inr ⟨rfl, rfl⟩⟩
    · exact ⟨m, by simp [List.getElem?_set_ne hij, hm], .inl rfl⟩
  | accessBegun ha hu =>
    obtain ⟨hlt, _⟩ := List.getElem?_eq_some_iff.mp hm
    exact ⟨m, by simp [List.getElem?_append_left hlt, hm], .inl rfl⟩
  | _ => exact ⟨m, by simpa using hm, .inl rfl⟩

/-- A move keeps every record; it performs one only by the move that names it, at an agent of its scope where it was
not performed. -/
theorem Move.ops_getElem? (h : Move u ev v) {k : Nat} {op : Op} (hop : u.ops[k]? = some op) :
    ∃ op', v.ops[k]? = some op' ∧ (op' = op ∨ ∃ a extra, ev = .perform k a extra ∧ a ∈ op.scope ∧
      a ∉ op.performed ∧ op' = op.afterPerform u a ∧ v = u.withPerform k op a extra) := by
  obtain ⟨hlt, _⟩ := List.getElem?_eq_some_iff.mp hop
  cases h with
  | issued attr v ss hf hp hi hss => exact ⟨op, by simp [List.getElem?_append_left hlt, hop], .inl rfl⟩
  | performed extra hop' hs hp =>
    rename_i j op' a
    by_cases hjk : j = k
    · subst hjk
      cases Option.some.inj (hop'.symm.trans hop)
      exact ⟨_, by simp [hlt], .inr ⟨a, extra, rfl, hs, hp, rfl, rfl⟩⟩
    · exact ⟨op, by simp [List.getElem?_set_ne hjk, hop], .inl rfl⟩
  | _ => exact ⟨op, by simpa using hop, .inl rfl⟩

/-- The move of a PE changes no TLB and no access, and only adds to the records (R62, R90). -/
theorem Move.of_pe {n : Nat} (h : Move u (.pe n) v) :
    (∀ a, v.tlb a = u.tlb a) ∧ v.inFlight = u.inFlight ∧ ∃ new, v.ops = u.ops ++ new := by
  cases h with
  | issued => exact ⟨by simp, rfl, _, rfl⟩
  | _ => exact ⟨by simp, rfl, [], by simp⟩

end

end Sys2Proof.Machine

/-! What every step keeps: the configuration, the program text, registers and control fields, faults, records and
accesses. -/
namespace Sys2Proof.Machine

/-! ### The step of a PE -/

/-- The state in which the next PE executes is `s` with the turn taken. -/
theorem State.MovesNext.eq_turn {s u : State} (h : s.MovesNext u) : u = s.turn u.self := by
  rcases h with ⟨hs, rfl⟩ | ⟨n, rest, hs, _, rfl⟩
  · exact (State.turn_of_nil hs).symm
  · exact (State.turn_of_cons hs n).symm

theorem stepPE_of_fault {u : State} {f : Fault} (h : u.pe.fault = some f) : stepPE u = .fault f := by
  simp only [stepPE, h]

theorem stepPE_of_no_fault {u : State} (h : u.pe.fault = none) : stepPE u = settle u (executeOne u) := by
  simp only [stepPE, h]

theorem executeOne_of_instr {u : State} {i : Instr} (h : fetch u = .instr i) : executeOne u = exec i u := by
  simp only [executeOne, h]

/-- Settles O38: the alignment is the first thing the fetch looks at. -/
theorem misalignedFetchIsRefused : Obligations.MisalignedFetchIsRefused := by
  intro s u hnext hf hpc
  have hfetch : fetch u = .refused (.pcMisaligned u.pe.pc) := by simp only [fetch, if_neg hpc]
  rw [step_of_movesNext hnext, stepPE_of_no_fault hf]
  simp only [executeOne, hfetch, settle]

/-- Settles O5: the decoder's verdict on the bytes of the word is passed on as a refusal. -/
theorem unknownWordIsRefusedNotUndefined : Obligations.UnknownWordIsRefusedNotUndefined := by
  intro s u w hnext hf hpc hbytes hdecode
  have hbytes' : decode (bytesOfWord w) = .notInSpec w := by rw [decode_bytesOfWord, hdecode]
  have hfetch : fetch u = .refused (.notInSpec w) := by simp only [fetch, if_pos hpc, hbytes, hbytes']
  rw [step_of_movesNext hnext, stepPE_of_no_fault hf]
  simp only [executeOne, hfetch, settle]

/-- What becomes of each outcome of an execution. -/
theorem stepPE_of_executeOne {u : State} (hf : u.pe.fault = none) :
    (∀ t, executeOne u = .next t → stepPE u = .next (State.noted u t)) ∧
    (∀ f, executeOne u = .fault f → stepPE u = .next (u.recordFault f)) ∧
    ∀ r, executeOne u = .refused r → stepPE u = .refused r := by
  rw [stepPE_of_no_fault hf]
  exact ⟨fun t h => by rw [h, settle], fun f h => by rw [h, settle], fun r h => by rw [h, settle]⟩

/-- Noting adds lines to the history and changes nothing else. -/
theorem State.noted_eq_append (u t : State) :
    ∃ lines, State.noted u t = { t with history := t.history ++ lines } :=
  ⟨issuedSince u t ++ completedSince u t, by rw [State.noted, List.append_assoc]⟩

/-- Settles O35: the fetch finds the decoded instruction, and the step settles what `exec` answers. -/
theorem stepRunsTheDecodedInstruction : Obligations.StepRunsTheDecodedInstruction := by
  intro s u i bytes hnext hf hpc hbytes hdecode _
  obtain ⟨hn, hfault, hr⟩ := stepPE_of_executeOne hf
  rw [executeOne_of_instr (fetch_instr hpc hbytes hdecode)] at hn hfault hr
  rw [step_of_movesNext hnext]
  exact ⟨fun t ht => ⟨hn t ht, State.noted_eq_append u t⟩, hfault, hr⟩

/-- Settles O39: the step is `recordFault`, which writes one field of one PE. -/
theorem faultChangesNothingElse : Obligations.FaultChangesNothingElse := by
  intro s u f hnext hself hf hexec
  obtain ⟨_, hfault, _⟩ := stepPE_of_executeOne hf
  have hu := hnext.eq_turn
  have hpeAt (n : Nat) : u.peAt n = s.peAt n := by rw [hu, State.turn_peAt]
  have htlb (n : Nat) : ((u.recordFault f).peAt n).tlb = (u.peAt n).tlb := State.tlb_recordFault u f (.pe n)
  refine ⟨u.recordFault f, (step_of_movesNext hnext).trans (hfault f hexec), ?recorded, ?frame, ?others, ?_⟩
  case recorded => rw [State.peAt_recordFault, if_pos ⟨rfl, hself⟩]
  case frame => exact fun n => by simp [htlb, hpeAt]
  case others =>
    intro n hn
    rw [State.peAt_recordFault, if_neg fun h => hn h.1, hpeAt]
  rw [hu]
  simp

/-! ### What every step keeps of the PEs -/

/-- Settles O42: no move writes the configuration or the text. -/
theorem stepKeepsConfigurationAndProgram : Obligations.StepKeepsConfigurationAndProgram := by
  intro s t h
  obtain ⟨n, ev, v, _, _, hmove, rfl⟩ := step_move h
  exact ⟨hmove.cfg_eq, fun addr => congrArg (Memory.read · addr) hmove.mem_eq⟩

theorem step_cfg_eq {s t : State} (h : step s = .next t) : t.cfg = s.cfg := (stepKeepsConfigurationAndProgram s t h).1

/-- Settles O43: no move writes a control field or a general register. -/
theorem stepKeepsExceptionLevels : Obligations.StepKeepsExceptionLevels := by
  intro s t h
  obtain ⟨n, ev, v, _, _, hmove, rfl⟩ := step_move h
  have hctl (m : Nat) : (v.peAt m).ctl = (s.peAt m).ctl := hmove.peAt_ctl_eq m
  exact ⟨hmove.pes_length_eq, fun m => ⟨congrArg Controls.el (hctl m), hctl m, hmove.peAt_x_eq m⟩⟩

/-- `ReqPred` reads nothing that a step writes. -/
theorem Op.reqPred_of_step {s t : State} (h : step s = .next t) (op : Op) (a : Agent) (e : TlbEntry) :
    op.reqPred t a e = op.reqPred s a e := by
  obtain ⟨_, hpe⟩ := stepKeepsExceptionLevels s t h
  refine Op.reqPred_congr op a e (step_cfg_eq h) fun n => ?_
  obtain ⟨_, hctl, _⟩ := hpe n
  exact hctl

/-- Settles O40: a PE that has faulted makes no move, and no other move writes its fault or its `pc`. -/
theorem faultIsNeverCleared : Obligations.FaultIsNeverCleared := by
  refine ⟨fun s t n f h hf => ?_, fun s u f hnext hf => ?_⟩
  · obtain ⟨_, _, v, _, _, hmove, rfl⟩ := step_move h
    exact hmove.peAt_fault hf
  · exact (step_of_movesNext hnext).trans (stepPE_of_fault hf)

/-- Settles O44: only the advance writes a `pc`, that of the PE which moves. -/
theorem pcMovesOnlyByOwnExecution : Obligations.PcMovesOnlyByOwnExecution := by
  intro s t n h
  obtain ⟨m, ev, v, _, hev, hmove, rfl⟩ := step_move h
  rcases hmove.peAt_pc n with hpc | ⟨hself, rfl, _, hp, hpc⟩
  · exact .inl hpc
  refine .inr ⟨?_, ?_, hev.imp And.left id⟩
  · rw [State.noted_self, hmove.self_eq, hself]
  · rw [State.turn_peAt] at hp hpc
    rw [State.noted_peAt, hpc, BitVec.toNat_add, BitVec.toNat_ofNat]
    omega

/-! ### What every step keeps of the records and of the accesses -/

/-- Settles O45: the moves of a PE write neither TLBs nor accesses, and add to the records. -/
theorem executionTouchesNoTlb : Obligations.ExecutionTouchesNoTlb := by
  intro s t hsched h
  obtain ⟨n, ev, v, _, hev, hmove, rfl⟩ := step_move h
  obtain ⟨m, rfl⟩ : ∃ m, ev = .pe m := by
    rcases hev with ⟨_, rfl⟩ | ⟨rest, hs⟩
    · exact ⟨n, rfl⟩
    · rcases hsched with hnil | ⟨m, rest', hpe⟩
      · rw [hnil] at hs; cases hs
      · rw [hpe] at hs; cases hs; exact ⟨m, rfl⟩
  obtain ⟨htlb, hin, hops⟩ := hmove.of_pe
  exact ⟨fun a => by rw [State.noted_tlb, htlb, State.turn_tlb], hin, hops⟩

/-- Settles O46: a record is rewritten by the perform step alone, which adds to `performed` and `waits`. -/
theorem stepKeepsIssuedRecords : Obligations.StepKeepsIssuedRecords := by
  intro s t k op h hop
  obtain ⟨n, ev, v, _, _, hmove, rfl⟩ := step_move h
  obtain ⟨op', hop', rfl | ⟨a, extra, _, _, _, rfl, _⟩⟩ := hmove.ops_getElem? hop
  · exact ⟨op', hop', rfl, ⟨[], by simp⟩, [], by simp⟩
  · exact ⟨_, hop', rfl, ⟨_, rfl⟩, _, rfl⟩

/-- A step keeps every access, and completes one only by the move that names it. -/
theorem step_inFlight_getElem? {s t : State} (h : step s = .next t) {i : Nat} {m : Access}
    (hm : s.inFlight[i]? = some m) :
    ∃ m', t.inFlight[i]? = some m' ∧ (m' = m ∨
      (m' = { m with complete := true } ∧ ∃ rest, s.schedule = .completeAccess i :: rest)) := by
  obtain ⟨n, ev, v, _, hev, hmove, rfl⟩ := step_move h
  obtain ⟨m', hm', heq⟩ := hmove.inFlight_getElem? hm
  refine ⟨m', hm', heq.imp id fun hc => ⟨hc.1, ?_⟩⟩
  rcases hev with ⟨_, hpe⟩ | hev
  · rw [hpe] at hc; cases hc.2
  · rw [← hc.2]; exact hev

/-- An access that holds nothing up does so after every step. -/
theorem Access.released_of_step {s t : State} (h : step s = .next t) {i : Nat} {m : Access} {attr : TlbiAttr}
    (hm : s.inFlight[i]? = some m) (hr : m.released attr = true) :
    ∃ m', t.inFlight[i]? = some m' ∧ m'.released attr = true := by
  obtain ⟨m', hm', rfl | ⟨rfl, _⟩⟩ := step_inFlight_getElem? h hm
  · exact ⟨m', hm', hr⟩
  · exact ⟨_, hm', by simp [Access.released]⟩

/-- Settles O54: a complete operation was performed at its whole scope, so no perform step rewrites its record, and
the accesses it waited for stay released. -/
theorem completionIsStable : Obligations.CompletionIsStable := by
  intro s t k h hc
  obtain ⟨op, hop, hcomplete⟩ := (State.opComplete_iff s k).mp hc
  obtain ⟨hperf, hwaits⟩ := (Op.complete_iff _ op).mp hcomplete
  have hop' : t.ops[k]? = some op := by
    obtain ⟨n, ev, v, _, _, hmove, rfl⟩ := step_move h
    obtain ⟨op', hop', rfl | ⟨a, _, _, hs, hp, _⟩⟩ := hmove.ops_getElem? hop
    · exact hop'
    · exact absurd ((hperf a).mpr hs) hp
  refine (State.opComplete_iff t k).mpr ⟨op, hop', (Op.complete_iff _ op).mpr ⟨hperf, fun i hi => ?_⟩⟩
  obtain ⟨m, hm, hr⟩ := hwaits i hi
  exact Access.released_of_step h hm hr

/-! ### The moves of the operation agents and of the environment -/

/-- Settles O41: such a move is never a fault and never refused. -/
theorem agentMovesNeverStop : Obligations.AgentMovesNeverStop := by
  intro s ev rest hs hev
  have hstep := step_agentMove s ev rest hev
  rw [← hs] at hstep
  exact ⟨_, hstep, (move_agentMove _ ev).schedule_eq⟩

@[simp] theorem State.hasAgent_withSchedule (s : State) (l : List Event) (a : Agent) :
    ({ s with schedule := l } : State).hasAgent a = s.hasAgent a := by
  cases a <;> rfl

/-- Inside its guard the beginning of an access adds it, not complete (assumption 30). -/
theorem State.beginAccess_of_guard {s : State} {m : Access} (ha : s.hasAgent m.agent = true)
    (hm : ∀ e ∈ m.uses, e.wf s.cfg = true) :
    s.beginAccess m = { s with inFlight := s.inFlight ++ [{ m with complete := false }] } := by
  have hall : m.uses.all (TlbEntry.wf s.cfg) = true := List.all_eq_true.mpr hm
  simp only [State.beginAccess, ha, hall, Bool.and_self, if_true]

/-- Outside its guard the move does nothing. -/
theorem State.beginAccess_of_not_guard {s : State} {m : Access}
    (h : s.hasAgent m.agent = false ∨ ∃ e ∈ m.uses, e.wf s.cfg = false) : s.beginAccess m = s := by
  rcases State.beginAccess_cases s m with heq | ⟨ha, hm, _⟩
  · exact heq
  rcases h with hfalse | ⟨e, he, hwf⟩
  · exact absurd ha (by simp [hfalse])
  · exact absurd (hm e he) (by simp [hwf])

/-- The beginning of an access writes `InFlight` alone. -/
theorem State.beginAccess_frame (s : State) (m : Access) :
    (s.beginAccess m).pes = s.pes ∧ (s.beginAccess m).smmus = s.smmus ∧ (s.beginAccess m).ops = s.ops ∧
      (s.beginAccess m).schedule = s.schedule := by
  rcases State.beginAccess_cases s m with h | ⟨_, _, h⟩ <;> rw [h] <;> exact ⟨rfl, rfl, rfl, rfl⟩

/-- Settles O47: the three moves that speak of accesses, and `step_inFlight_getElem?` for every step. -/
theorem completedAccessStaysComplete : Obligations.CompletedAccessStaysComplete := by
  refine ⟨fun s t i m h hm => ?kept, fun s i m rest hm => ?completed, fun s m rest => ?begun⟩
  case kept =>
    obtain ⟨m', hm', rfl | ⟨rfl, hev⟩⟩ := step_inFlight_getElem? h hm
    · exact ⟨m', hm', rfl, rfl, rfl, id, fun hne => absurd rfl hne⟩
    · exact ⟨_, hm', rfl, rfl, rfl, fun _ => rfl, fun _ => hev⟩
  case completed =>
    obtain ⟨hlt, _⟩ := List.getElem?_eq_some_iff.mp hm
    refine ⟨_, step_agentMove s (.completeAccess i) rest (by simp), ?_⟩
    simp only [State.agentMove, State.completeAccess, hm]
    refine ⟨by simp [hlt], by simp, fun j hj => ?_, rfl, rfl, rfl, rfl⟩
    exact List.getElem?_set_ne (Ne.symm hj)
  case begun =>
    refine ⟨_, step_agentMove s (.beginAccess m) rest (by simp), fun ha hm => ?_, fun h => ?_,
      State.beginAccess_frame { s with schedule := rest } m⟩
    · rw [State.agentMove, State.noted_inFlight,
        State.beginAccess_of_guard (s := { s with schedule := rest }) (by simpa using ha) hm]
    · rw [State.agentMove, State.noted_inFlight,
        State.beginAccess_of_not_guard (s := { s with schedule := rest }) (by simpa using h)]

end Sys2Proof.Machine

/-! The perform step, the completion of an operation, and the free moves of the environment (R38, R60, R61, R98). -/
namespace Sys2Proof.Machine

/-! ### The perform step as a step of the machine -/

/-- The state after a scheduled perform step that is open. -/
theorem step_perform {s : State} {k : Nat} {op : Op} {a : Agent} (extra : List TlbEntry) (rest : List Event)
    (hop : s.ops[k]? = some op) (hs : a ∈ op.scope) (hp : a ∉ op.performed) :
    ∃ t, step { s with schedule := .perform k a extra :: rest } = .next t ∧
      (∀ b, t.tlb b = if b = a then op.keptAt s a extra else s.tlb b) ∧
      t.ops = s.ops.set k (op.afterPerform s a) ∧ t.inFlight = s.inFlight := by
  refine ⟨_, step_agentMove s (.perform k a extra) rest (by simp), ?_⟩
  rw [State.agentMove, State.performAt_eq (s := { s with schedule := rest }) extra hop hs hp]
  refine ⟨fun b => ?_, rfl, by simp⟩
  rw [State.noted_tlb]
  exact State.withPerform_tlb { s with schedule := rest } k op a extra b

/-- The record of an operation after its perform step. -/
theorem getElem?_set_afterPerform {s : State} {k : Nat} {op : Op} (a : Agent) (hop : s.ops[k]? = some op) :
    (s.ops.set k (op.afterPerform s a))[k]? = some (op.afterPerform s a) := by
  obtain ⟨hlt, _⟩ := List.getElem?_eq_some_iff.mp hop
  simp [hlt]

/-- Settles O48: what stays is outside the required set and outside `extra`, and `K` itself is a choice of `extra`
that removes `K`. -/
theorem performRemovesRequiredEntries : Obligations.PerformRemovesRequiredEntries := by
  intro s k op a rest hop hs hp
  refine ⟨fun extra => ?_, fun K hreq _ => ?_⟩
  · obtain ⟨t, hstep, htlb, _, _⟩ := step_perform extra rest hop hs hp
    refine ⟨t, hstep, fun e he => ?_, fun b hb => by rw [htlb, if_neg hb]⟩
    rw [htlb, if_pos rfl, Op.mem_keptAt] at he
    obtain ⟨hmem, hfalse, _⟩ := he
    exact ⟨hmem, by simp [Op.mem_required, hfalse]⟩
  · obtain ⟨t, hstep, htlb, _, _⟩ := step_perform K rest hop hs hp
    refine ⟨K, t, hstep, fun e => ?_⟩
    rw [htlb, if_pos rfl, Op.mem_keptAt]
    refine ⟨fun ⟨hmem, _, hK⟩ => ⟨hmem, hK⟩, fun ⟨hmem, hK⟩ => ⟨hmem, ?_, hK⟩⟩
    rw [← Bool.not_eq_true]
    exact fun htrue => hK (hreq e (Op.mem_required.mpr ⟨hmem, htrue⟩))

/-- What a perform step waits for (R60). -/
theorem Op.waitsFor_iff (s : State) (op : Op) (a : Agent) (m : Access) :
    op.waitsFor s a m = true ↔ m.agent = a ∧ m.complete = false ∧ ∃ e ∈ m.uses, op.reqPred s a e = true := by
  simp [Op.waitsFor, and_assoc]

/-- The accesses an operation waits for after a perform step. -/
theorem Op.mem_afterPerform_waits {s : State} {op : Op} {a : Agent} {i : Nat} :
    i ∈ (op.afterPerform s a).waits ↔ i ∈ op.waits ∨ ∃ m, s.inFlight[i]? = some m ∧ m.agent = a ∧
      m.complete = false ∧ ∃ e ∈ m.uses, op.reqPred s a e = true := by
  simp only [Op.afterPerform, List.mem_append, Op.mem_newWaits, Op.waitsFor_iff]
  tauto

/-- Settles O49: the waits grow by `newWaits`, and the record is the only one replaced. -/
theorem performWaitsForAccessesInUse : Obligations.PerformWaitsForAccessesInUse := by
  intro s k op a extra rest hop hs hp
  obtain ⟨t, hstep, _, hops, hin⟩ := step_perform extra rest hop hs hp
  refine ⟨t, op.afterPerform s a, hstep, ?_, rfl, fun i => Op.mem_afterPerform_waits, fun j hj => ?_, hin⟩
  · rw [hops]
    exact getElem?_set_afterPerform a hop
  · rw [hops]
    exact List.getElem?_set_ne (Ne.symm hj)

/-- A perform move that is not open does nothing. -/
theorem State.performAt_of_not_open {s : State} {k : Nat} {a : Agent} (extra : List TlbEntry)
    (h : ∀ op, s.ops[k]? = some op → a ∉ op.scope ∨ a ∈ op.performed) : s.performAt k a extra = s := by
  rcases State.performAt_cases s k a extra with heq | ⟨op, hop, hs, hp, _⟩
  · exact heq
  · exact absurd (h op hop) (by simp [hs, hp])

/-- Settles O50: such a move is not open. -/
theorem performOncePerAgentOfTheScope : Obligations.PerformOncePerAgentOfTheScope := by
  intro s k a extra rest hclosed
  refine ⟨_, step_agentMove s (.perform k a extra) rest (by simp), ?_⟩
  rw [State.agentMove, State.performAt_of_not_open (s := { s with schedule := rest }) extra hclosed]
  exact ⟨fun b => by cases b <;> rfl, rfl, rfl, rfl⟩

/-! ### Completion -/

/-- The waited accesses of a record that names only accesses there are. -/
theorem forall_waits_released_iff {l : List Access} {op : Op} (hw : ∀ i ∈ op.waits, i < l.length) :
    (∀ i ∈ op.waits, ∃ m, l[i]? = some m ∧ m.released op.attr = true) ↔
      ∀ i ∈ op.waits, ∀ m, l[i]? = some m → m.released op.attr = true := by
  refine forall₂_congr fun i hi => ?_
  simp [List.getElem?_eq_getElem (hw i hi)]

/-- Settles O52: `Complete(op)` in words, with what releases an access under each `attr`. -/
theorem completionOfEachVariant : Obligations.CompletionOfEachVariant := by
  intro s k op hop hw
  have hcomplete : s.opComplete k = true ↔ (∀ a, a ∈ op.performed ↔ a ∈ op.scope) ∧
      ∀ i ∈ op.waits, ∀ m, s.inFlight[i]? = some m → m.released op.attr = true := by
    rw [← forall_waits_released_iff hw, ← Op.complete_iff, State.opComplete_iff]
    simp [hop]
  refine ⟨fun hattr => ?_, fun hattr => ?_⟩ <;> rw [hcomplete, hattr]
  · simp [Access.released_iff]
  · simp only [Access.released_iff, true_and, ← Bool.not_eq_true, imp_iff_not_or, not_not, or_comm]

/-- What releases an access for the base form releases it for the nXS form (R61). -/
theorem Access.released_excludeXS {m : Access} (h : m.released .allAttr = true) : m.released .excludeXS = true := by
  simp only [Access.released_iff, reduceCtorEq, false_and, or_false] at h
  exact (Access.released_iff _ _).mpr (.inl h)

/-- Settles O53: `ExcludeXS` releases every access that `AllAttr` releases; and one access with XS 1, still
incomplete, holds up the latter alone. -/
theorem nxsCompletesNoLater : Obligations.NxsCompletesNoLater := by
  refine ⟨fun inFlight op h => ?_, ?_⟩
  · obtain ⟨hperf, hwaits⟩ := (Op.complete_iff inFlight { op with attr := .allAttr }).mp h
    refine (Op.complete_iff _ _).mpr ⟨hperf, fun i hi => ?_⟩
    obtain ⟨m, hm, hr⟩ := hwaits i hi
    exact ⟨m, hm, Access.released_excludeXS hr⟩
  · refine ⟨[⟨.pe 0, [], true, false⟩],
      ⟨0, .excludeXS, .nonSecure, 0, 0#64, false, false, .el2, [.pe 0], [.pe 0], [0]⟩, rfl, ?_⟩
    decide

/-! ### The scope of an issued operation -/

/-- Settles O51: the record's scope is the domain, which lists the issuer first and the configured members once. -/
theorem scopeIsTheOuterShareableDomain : Obligations.ScopeIsTheOuterShareableDomain := by
  intro i s t op h hops
  obtain ⟨_, _, ⟨_, ss, _, rfl⟩ | ⟨_, _, rfl⟩⟩ := exec_next h
  · have hop : op = issueRecord s (attrOf i) ss (s.pe.readX i.rt) := by simpa using hops.symm
    rw [hop]
    exact ⟨rfl, oshDomain_nodup _ _, (mem_oshDomain _ _ _).mpr (.inl rfl), mem_oshDomain s.cfg s.self⟩
  · simp at hops

/-! ### The environment -/

/-- Replacing a TLB changes the TLBs alone. -/
theorem State.sameApartFromTlbs_setTlb (s : State) (a : Agent) (l : List TlbEntry) :
    s.SameApartFromTlbs (s.setTlb a l) := by
  simp [State.SameApartFromTlbs]

theorem State.sameApartFromTlbs_fill (s : State) (a : Agent) (e : TlbEntry) : s.SameApartFromTlbs (s.fill a e) := by
  rcases State.fill_cases s a e with h | ⟨_, _, h⟩
  · rw [h]
    simp [State.SameApartFromTlbs]
  · rw [h]
    exact s.sameApartFromTlbs_setTlb a _

/-- What the filling of a TLB does inside its guard (assumption 30). -/
theorem State.tlb_fill_of_guard {s : State} {a : Agent} {e : TlbEntry} (ha : s.hasAgent a = true)
    (hw : e.wf s.cfg = true) (hn : e ∉ s.tlb a) : (s.fill a e).tlb a = s.tlb a ++ [e] := by
  have hopen : s.fill a e = s.setTlb a (s.tlb a ++ [e]) := by simp [State.fill, hw, hn]
  rw [hopen, State.tlb_setTlb s a a _ ha, if_pos rfl]

/-- Outside its guard the filling of a TLB does nothing. -/
theorem State.fill_of_not_guard {s : State} {a : Agent} {e : TlbEntry}
    (h : s.hasAgent a = false ∨ e.wf s.cfg = false ∨ e ∈ s.tlb a) : s.fill a e = s := by
  rcases State.fill_cases s a e with heq | ⟨hw, hn, heq⟩
  · exact heq
  rcases h with ha | hw' | hmem
  · rw [heq, State.setTlb_of_not_hasAgent s a _ ha]
  · rw [hw] at hw'; cases hw'
  · exact absurd hmem hn

/-- A TLB is filled without effect on the others. -/
theorem State.tlb_fill_of_ne {s : State} {a b : Agent} (e : TlbEntry) (hb : b ≠ a) :
    (s.fill a e).tlb b = s.tlb b := by
  cases ha : s.hasAgent a with
  | false => rw [State.fill_of_not_guard (.inl ha)]
  | true =>
    rcases State.fill_cases s a e with heq | ⟨_, _, heq⟩
    · rw [heq]
    · rw [heq, State.tlb_setTlb s a b _ ha, if_neg hb]

/-- Dropping entries is a step that is not noted. -/
theorem step_evict (s : State) (a : Agent) (drop : List TlbEntry) (rest : List Event) :
    step { s with schedule := .evict a drop :: rest } = .next (State.evict { s with schedule := rest } a drop) := by
  rw [step_agentMove s (.evict a drop) rest (by simp), State.agentMove, State.noted_eq_of_eq] <;> simp [State.evict]

/-- Filling a TLB is a step that is not noted. -/
theorem step_fill (s : State) (a : Agent) (e : TlbEntry) (rest : List Event) :
    step { s with schedule := .fill a e :: rest } = .next (State.fill { s with schedule := rest } a e) := by
  obtain ⟨_, _, _, _, _, hin, hops, _⟩ := State.sameApartFromTlbs_fill { s with schedule := rest } a e
  rw [step_agentMove s (.fill a e) rest (by simp), State.agentMove, State.noted_eq_of_eq hops hin]

@[simp] theorem State.tlb_withSchedule (s : State) (l : List Event) (a : Agent) :
    ({ s with schedule := l } : State).tlb a = s.tlb a := by
  cases a <;> rfl

/-- What dropping leaves in each TLB. -/
theorem State.tlb_evict (s : State) (a b : Agent) (drop : List TlbEntry) :
    (s.evict a drop).tlb b = if b = a then (s.tlb a).filter (fun e => decide (e ∉ drop)) else s.tlb b := by
  rw [State.evict, State.tlb_setTlb_filter]
  simp

theorem State.fill_schedule (s : State) (a : Agent) (e : TlbEntry) : (s.fill a e).schedule = s.schedule :=
  (move_agentMove s (.fill a e)).schedule_eq

/-- Settles O55: dropping and filling are `setTlb`, which writes one TLB, and each guard is written out. -/
theorem environmentMayDropAndFill : Obligations.EnvironmentMayDropAndFill := by
  refine ⟨fun s a rest => ⟨fun drop => ?dropped, fun e => ?filled⟩, fun s n => ?agents, TlbEntry.wf_iff⟩
  case agents => simp [State.hasAgent]
  case dropped =>
    refine ⟨_, step_evict s a drop rest, ?_, fun b hb => ?_, State.sameApartFromTlbs_setTlb _ a _, ?_⟩
    · rw [State.tlb_evict, if_pos rfl, State.tlb_withSchedule]
    · rw [State.tlb_evict, if_neg hb, State.tlb_withSchedule]
    · rw [State.evict, State.setTlb_schedule]
  case filled =>
    refine ⟨_, step_fill s a e rest, fun ha hw hn => ?_, fun h => ?_, fun b hb => ?_,
      State.sameApartFromTlbs_fill _ a e, State.fill_schedule _ a e⟩
    · rw [State.tlb_fill_of_guard (s := { s with schedule := rest }) (by simpa using ha) hw (by simpa using hn),
        State.tlb_withSchedule]
    · rw [State.fill_of_not_guard (by simpa using h), State.tlb_withSchedule]
    · rw [State.tlb_fill_of_ne e hb, State.tlb_withSchedule]

end Sys2Proof.Machine

/-! The invariant of the machine: every step keeps `State.Wf`. -/
namespace Sys2Proof.Machine

/-! ### Well-formedness part by part -/

/-- What `PE.Wf` says apart from the TLB. -/
def PE.WfControls (cfg : Config) (p : PE) : Prop :=
  legalEL cfg p.ctl.el = true ∧ p.ctl.vmid < 2 ^ cfg.vmidBits ∧ p.pc.toNat % 4 = 0

theorem PE.wf_iff (cfg : Config) (p : PE) : p.Wf cfg ↔ p.WfControls cfg ∧ tlbWf cfg p.tlb := by
  simp only [PE.Wf, PE.WfControls, and_assoc]

/-- Said of all elements of a list, by their places. -/
theorem forall_mem_iff_getD {α : Type} (l : List α) (d : α) (p : α → Prop) :
    (∀ x ∈ l, p x) ↔ ∀ n < l.length, p (l.getD n d) := by
  rw [List.forall_mem_iff_getElem]
  exact forall₂_congr fun n hn => by rw [List.getD_eq_getElem l d hn]

/-- The TLBs of all agents are well formed exactly when those of the PEs and of the System MMUs there are. -/
theorem forall_tlbWf_iff (s : State) :
    (∀ a, tlbWf s.cfg (s.tlb a)) ↔
      (∀ n < s.pes.length, tlbWf s.cfg (s.peAt n).tlb) ∧ ∀ l ∈ s.smmus, tlbWf s.cfg l := by
  rw [forall_mem_iff_getD s.smmus []]
  refine ⟨fun h => ⟨fun n _ => h (.pe n), fun n _ => h (.smmu n)⟩, fun ⟨hpe, hsmmu⟩ a => ?_⟩
  cases ha : s.hasAgent a with
  | false =>
    rw [State.tlb_of_not_hasAgent s a ha]
    exact ⟨List.nodup_nil, by simp⟩
  | true =>
    cases a with
    | pe n => exact hpe n (by simpa [State.hasAgent] using ha)
    | smmu n => exact hsmmu n (by simpa [State.hasAgent] using ha)

/-- `State.Wf` with the PEs by their numbers and the TLBs by their agents. -/
theorem State.wf_iff (s : State) :
    s.Wf ↔ s.self < s.pes.length ∧ (∀ n < s.pes.length, (s.peAt n).WfControls s.cfg) ∧
      (∀ a, tlbWf s.cfg (s.tlb a)) ∧ (∀ m ∈ s.inFlight, ∀ e ∈ m.uses, e.wf s.cfg = true) ∧
      (∀ op ∈ s.ops, op.Wf s.cfg s.inFlight.length) ∧ Memory.wf s.mem = true := by
  have hpes : (∀ p ∈ s.pes, p.Wf s.cfg) ↔
      (∀ n < s.pes.length, (s.peAt n).WfControls s.cfg) ∧ ∀ n < s.pes.length, tlbWf s.cfg (s.peAt n).tlb := by
    rw [forall_mem_iff_getD s.pes PE.reset]
    simp only [PE.wf_iff, State.peAt, ← forall_and]
  rw [State.Wf, hpes, forall_tlbWf_iff]
  simp only [and_assoc]

/-! ### TLBs and accesses -/

theorem tlbWf_filter {cfg : Config} {l : List TlbEntry} (h : tlbWf cfg l) (p : TlbEntry → Bool) :
    tlbWf cfg (l.filter p) :=
  ⟨h.1.filter p, fun e he => h.2 e (List.mem_of_mem_filter he)⟩

theorem tlbWf_append_singleton {cfg : Config} {l : List TlbEntry} {e : TlbEntry} (h : tlbWf cfg l)
    (hw : e.wf cfg = true) (hn : e ∉ l) : tlbWf cfg (l ++ [e]) := by
  refine ⟨List.nodup_append.mpr ⟨h.1, List.nodup_singleton e, ?_⟩, ?_⟩
  · intro x hx y hy hxy
    rw [List.mem_singleton.mp hy] at hxy
    exact hn (hxy ▸ hx)
  · intro x hx
    rcases List.mem_append.mp hx with hx | hx
    · exact h.2 x hx
    · rw [List.mem_singleton.mp hx]; exact hw

section
variable {u v : State} {ev : Event}

/-- The TLBs stay sets of well-formed entries: a move drops entries or adds one that is well formed and new. -/
theorem Move.tlbWf (h : Move u ev v) (hu : ∀ a, tlbWf u.cfg (u.tlb a)) (b : Agent) : tlbWf v.cfg (v.tlb b) := by
  rw [h.cfg_eq]
  cases h with
  | performed extra hop hs hp =>
    rw [State.withPerform_tlb]
    split
    · exact tlbWf_filter (hu _) _
    · exact hu b
  | evicted a entries =>
    rw [State.tlb_setTlb_filter]
    split
    · exact tlbWf_filter (hu _) _
    · exact hu b
  | filled hw hn =>
    rename_i a e
    cases ha : u.hasAgent a with
    | false => rw [State.setTlb_of_not_hasAgent u a _ ha]; exact hu b
    | true =>
      rw [State.tlb_setTlb u a b _ ha]
      split
      · exact tlbWf_append_singleton (hu a) hw hn
      · exact hu b
  | _ => simpa using hu b

/-- The accesses keep to well-formed entries. -/
theorem Move.uses_wf (h : Move u ev v) (hu : ∀ m ∈ u.inFlight, ∀ e ∈ m.uses, e.wf u.cfg = true) :
    ∀ m ∈ v.inFlight, ∀ e ∈ m.uses, e.wf v.cfg = true := by
  rw [h.cfg_eq]
  cases h with
  | accessCompleted hm =>
    rename_i i m
    intro m' hm'
    rcases List.mem_or_eq_of_mem_set hm' with hm' | rfl
    · exact hu m' hm'
    · exact hu m (List.mem_of_getElem? hm)
  | accessBegun ha hm =>
    intro m' hm'
    rcases List.mem_append.mp hm' with hm' | hm'
    · exact hu m' hm'
    · rw [List.mem_singleton.mp hm']; exact hm
  | _ => simpa using hu

/-- No access is forgotten. -/
theorem Move.inFlight_length_le (h : Move u ev v) : u.inFlight.length ≤ v.inFlight.length := by
  cases h <;> simp

/-! ### Records -/

theorem Op.Wf.mono {cfg : Config} {n m : Nat} {op : Op} (h : op.Wf cfg n) (hnm : n ≤ m) : op.Wf cfg m := by
  obtain ⟨hel, hss, hvmid, hscope, hnodup, hsub, hwnodup, hwaits⟩ := h
  exact ⟨hel, hss, hvmid, hscope, hnodup, hsub, hwnodup, fun i hi => (hwaits i hi).trans_le hnm⟩

/-- Without `FEAT_RME` there is no Realm Security state (R33). -/
theorem featRME_of_targetSS_realm {cfg : Config} {c : Controls} (h : targetSS cfg c = some .realm) :
    cfg.featRME = true := by
  by_contra hf
  cases hns : (scrEff cfg c).ns <;> simp [targetSS, hf, hns] at h

/-- An issue samples a possible record (R94). -/
theorem issueRecord_wf (attr : TlbiAttr) {ss : SecurityState} (w : Word) (n : Nat) (hi : issues u.cfg u.pe.ctl)
    (hss : targetSS u.cfg u.pe.ctl = some ss) (hv : u.pe.ctl.vmid < 2 ^ u.cfg.vmidBits) :
    (issueRecord u attr ss w).Wf u.cfg n := by
  have hrealm : ss = .realm → u.cfg.featRME = true := fun h => featRME_of_targetSS_realm (h ▸ hss)
  exact ⟨hi.imp id And.left, hrealm, hv, rfl, List.nodup_nil, by simp [issueRecord], List.nodup_nil,
    by simp [issueRecord]⟩

/-- A perform step leaves a possible record (R60). -/
theorem Op.wf_afterPerform {op : Op} {a : Agent} (h : op.Wf u.cfg u.inFlight.length) (hs : a ∈ op.scope)
    (hp : a ∉ op.performed) : (op.afterPerform u a).Wf u.cfg u.inFlight.length := by
  obtain ⟨hel, hss, hvmid, hscope, hnodup, hsub, hwnodup, hwaits⟩ := h
  refine ⟨hel, hss, hvmid, hscope, ?performedNodup, ?performedSub, ?waitsNodup, ?waitsLt⟩
  case performedNodup => exact List.nodup_append.mpr ⟨hnodup, List.nodup_singleton a, by
    intro x hx y hy hxy
    rw [List.mem_singleton.mp hy] at hxy
    exact hp (hxy ▸ hx)⟩
  case performedSub =>
    intro b hb
    rcases List.mem_append.mp hb with hb | hb
    · exact hsub b hb
    · rw [List.mem_singleton.mp hb]; exact hs
  case waitsNodup =>
    refine List.nodup_append.mpr ⟨hwnodup, List.nodup_range.filter _, ?_⟩
    rintro i hi _ hj rfl
    exact (Op.mem_newWaits.mp hj).2 hi
  case waitsLt =>
    intro i hi
    rcases Op.mem_afterPerform_waits.mp hi with hi | ⟨m, hm, _⟩
    · exact hwaits i hi
    · exact (List.getElem?_eq_some_iff.mp hm).1

/-- The records stay possible. -/
theorem Move.ops_wf (h : Move u ev v) (hvmid : u.pe.ctl.vmid < 2 ^ u.cfg.vmidBits)
    (hu : ∀ op ∈ u.ops, op.Wf u.cfg u.inFlight.length) : ∀ op ∈ v.ops, op.Wf v.cfg v.inFlight.length := by
  intro op hop
  rw [h.cfg_eq]
  refine Op.Wf.mono ?_ h.inFlight_length_le
  cases h with
  | issued attr w ss hf hp hi hss =>
    rcases List.mem_append.mp hop with hop | hop
    · exact hu op hop
    · rw [List.mem_singleton.mp hop]
      exact issueRecord_wf attr w _ hi hss hvmid
  | performed extra hop' hs hp =>
    rcases List.mem_or_eq_of_mem_set hop with hop | rfl
    · exact hu op hop
    · exact Op.wf_afterPerform (hu _ (List.mem_of_getElem? hop')) hs hp
  | _ => exact hu op (by simpa using hop)

/-! ### The PEs -/

/-- A `pc` stays a multiple of 4, and the control fields stay. -/
theorem Move.wfControls (h : Move u ev v) {n : Nat} (hu : (u.peAt n).WfControls u.cfg) :
    (v.peAt n).WfControls v.cfg := by
  obtain ⟨hel, hvmid, hpc⟩ := hu
  rw [PE.WfControls, h.cfg_eq, h.peAt_ctl_eq]
  refine ⟨hel, hvmid, ?_⟩
  rcases h.peAt_pc n with heq | ⟨_, _, _, hlt, heq⟩
  · rw [heq]; exact hpc
  · rw [heq, BitVec.toNat_add, BitVec.toNat_ofNat]
    omega

end

/-- Settles O56, part by part of the state. -/
theorem stepKeepsStateWellFormed : Obligations.StepKeepsStateWellFormed := by
  intro s t hwf h
  obtain ⟨hself, hpes, htlb, huses, hops, hmem⟩ := (State.wf_iff s).mp hwf
  obtain ⟨n, ev, v, hn, _, hmove, rfl⟩ := step_move h
  have hn : n < s.pes.length := hn.elim (fun h => h ▸ hself) id
  obtain ⟨_, hvmid, _⟩ := hpes n hn
  refine (State.wf_iff _).mpr ⟨?self, ?pes, ?tlb, hmove.uses_wf huses, hmove.ops_wf hvmid hops, ?mem⟩
  case self => simpa [hmove.self_eq, hmove.pes_length_eq] using hn
  case pes =>
    intro m hm
    rw [State.noted_pes, hmove.pes_length_eq] at hm
    exact hmove.wfControls (hpes m hm)
  case tlb =>
    intro a
    rw [State.noted_tlb]
    exact hmove.tlbWf (by simpa using htlb) a
  case mem => simpa [hmove.mem_eq] using hmem

/-- Settles O58: the reset values meet every check, and there is no record, access or line of history. -/
theorem resetIsInitial : Obligations.ResetIsInitial := by
  refine ⟨⟨by decide, rfl, rfl⟩, ?agrees, ?justified, rfl⟩
  case agrees => simp [State.HistoryAgrees, State.reset, State.opComplete]
  case justified => simp [State.WaitsAreJustified, State.reset]

end Sys2Proof.Machine

/-! The event history (R41): every step keeps it in agreement with the records. -/
namespace Sys2Proof.Machine

section
variable {u v : State} {ev : Event}

/-! ### What a move adds to the history and to the records -/

/-- A move writes nothing in the history but the perform step it takes. -/
theorem Move.history_cases (h : Move u ev v) :
    v.history = u.history ∨ ∃ k op a extra, u.ops[k]? = some op ∧ a ∈ op.scope ∧ a ∉ op.performed ∧
      v = u.withPerform k op a extra := by
  cases h with
  | performed extra hop hs hp => exact .inr ⟨_, _, _, extra, hop, hs, hp, rfl⟩
  | _ => exact .inl (by simp)

/-- A record that was not there is as issued: nothing was performed and nothing is waited for. -/
theorem Move.asIssued_of_new (h : Move u ev v) {k : Nat} {op : Op} (hu : u.ops[k]? = none)
    (hop : v.ops[k]? = some op) : op.performed = [] ∧ op.asIssued = op := by
  cases h with
  | issued attr w ss =>
    rw [State.withNextPc_ops, State.addOp_ops,
      List.getElem?_append_right (List.getElem?_eq_none_iff.mp hu)] at hop
    obtain rfl := List.mem_singleton.mp (List.mem_of_getElem? hop)
    exact ⟨rfl, rfl⟩
  | performed extra hop' =>
    rw [State.withPerform_ops, List.getElem?_eq_none (by simpa using hu)] at hop
    cases hop
  | _ =>
    simp only [State.withNextPc_ops, State.recordFault_ops, State.withInFlight_ops, State.setTlb_ops, hu,
      reduceCtorEq] at hop

/-- A record that was there keeps what its issue sampled. -/
theorem Move.asIssued_getElem? (h : Move u ev v) {k : Nat} {op : Op} (hop : u.ops[k]? = some op) :
    ∃ op', v.ops[k]? = some op' ∧ op'.asIssued = op.asIssued ∧ ∀ a ∈ op.performed, a ∈ op'.performed := by
  obtain ⟨op', hop', rfl | ⟨a, _, _, _, _, rfl, _⟩⟩ := h.ops_getElem? hop
  · exact ⟨op', hop', rfl, fun _ => id⟩
  · exact ⟨_, hop', rfl, fun b hb => List.mem_append_left _ hb⟩

/-! ### The lines of the history after a step, by their kind -/

theorem Move.issued_mem_history (h : Move u ev v) {k : Nat} {r : Op} :
    .issued k r ∈ v.history ↔ .issued k r ∈ u.history := by
  rcases h.history_cases with heq | ⟨_, _, _, _, _, _, _, rfl⟩
  · rw [heq]
  · simp

theorem Move.completed_mem_history (h : Move u ev v) {k : Nat} :
    .completed k ∈ v.history ↔ .completed k ∈ u.history := by
  rcases h.history_cases with heq | ⟨_, _, _, _, _, _, _, rfl⟩
  · rw [heq]
  · simp

theorem State.mem_noted_history (ln : HistoryEvent) :
    ln ∈ (State.noted u v).history ↔ ln ∈ v.history ∨ ln ∈ issuedSince u v ∨ ln ∈ completedSince u v := by
  simp [State.noted]

/-- An issue is in the history after the step when it was, or when the record is new. -/
theorem Move.issued_mem_noted (h : Move u ev v) {k : Nat} {r : Op} :
    .issued k r ∈ (State.noted u v).history ↔
      .issued k r ∈ u.history ∨ (u.ops[k]? = none ∧ v.ops[k]? = some r) := by
  rw [State.mem_noted_history, h.issued_mem_history]
  simp [mem_issuedSince, mem_completedSince]

/-- A completion is in the history after the step when it was, or when the operation became complete. -/
theorem Move.completed_mem_noted (h : Move u ev v) {k : Nat} :
    .completed k ∈ (State.noted u v).history ↔
      .completed k ∈ u.history ∨ (v.opComplete k = true ∧ u.opComplete k = false) := by
  rw [State.mem_noted_history, h.completed_mem_history]
  simp [mem_issuedSince, mem_completedSince]

/-- The step itself notes issues and completions alone; a perform is noted by its move. -/
theorem performed_not_mem_since {k : Nat} {a : Agent} {r : List TlbEntry} :
    .performed k a r ∉ issuedSince u v ++ completedSince u v := by
  simp [mem_issuedSince, mem_completedSince]

/-- A perform is in the history after the step when it was, or when the move is that perform step. -/
theorem Move.performed_mem_noted (h : Move u ev v) {k : Nat} {a : Agent} {r : List TlbEntry} :
    .performed k a r ∈ (State.noted u v).history ↔
      .performed k a r ∈ u.history ∨ ∃ op extra, u.ops[k]? = some op ∧ a ∈ op.scope ∧ a ∉ op.performed ∧
        v = u.withPerform k op a extra ∧ r = op.removedAt u a extra := by
  have hnoted : .performed k a r ∈ (State.noted u v).history ↔ .performed k a r ∈ v.history := by
    rw [State.mem_noted_history, ← List.mem_append]
    exact or_iff_left performed_not_mem_since
  rw [hnoted]
  constructor
  · intro hv
    rcases h.history_cases with heq | ⟨j, op, b, extra, hop, hs, hp, rfl⟩
    · exact .inl (heq ▸ hv)
    · rcases List.mem_append.mp hv with hu | hnew
      · exact .inl hu
      · obtain ⟨rfl, rfl, rfl⟩ := HistoryEvent.performed.inj (List.mem_singleton.mp hnew)
        exact .inr ⟨op, extra, hop, hs, hp, rfl, rfl⟩
  · rintro (hu | ⟨op, extra, _, _, _, rfl, rfl⟩)
    · rcases h.history_cases with heq | ⟨_, _, _, _, _, _, _, rfl⟩
      · rwa [heq]
      · exact List.mem_append_left _ hu
    · exact List.mem_append_right _ (List.mem_singleton.mpr rfl)

/-! ### Agreement after the step -/

/-- The issues noted are those of the records, each as it was issued. -/
theorem Move.issued_agrees (h : Move u ev v)
    (hu : ∀ k r, .issued k r ∈ u.history ↔ ∃ op, u.ops[k]? = some op ∧ r = op.asIssued) (k : Nat) (r : Op) :
    .issued k r ∈ (State.noted u v).history ↔ ∃ op, v.ops[k]? = some op ∧ r = op.asIssued := by
  rw [h.issued_mem_noted, hu]
  cases hk : u.ops[k]? with
  | none =>
    constructor
    · rintro (⟨op, hop, _⟩ | ⟨_, hop⟩)
      · cases hop
      · exact ⟨r, hop, (h.asIssued_of_new hk hop).2.symm⟩
    · rintro ⟨op, hop, rfl⟩
      exact .inr ⟨rfl, hop.trans (congrArg some (h.asIssued_of_new hk hop).2.symm)⟩
  | some op =>
    obtain ⟨op', hop', hissued, _⟩ := h.asIssued_getElem? hk
    simp [hop', hissued]

/-- The performs noted are the agents in the records' `performed`. -/
theorem Move.performed_agrees (h : Move u ev v)
    (hu : ∀ k a, (∃ removed, .performed k a removed ∈ u.history) ↔ ∃ op, u.ops[k]? = some op ∧ a ∈ op.performed)
    (k : Nat) (a : Agent) :
    (∃ removed, .performed k a removed ∈ (State.noted u v).history) ↔
      ∃ op, v.ops[k]? = some op ∧ a ∈ op.performed := by
  simp only [h.performed_mem_noted]
  constructor
  · rintro ⟨r, hold | ⟨op, extra, hop, _, _, rfl, _⟩⟩
    · obtain ⟨op, hop, ha⟩ := (hu k a).mp ⟨r, hold⟩
      obtain ⟨op', hop', _, hsub⟩ := h.asIssued_getElem? hop
      exact ⟨op', hop', hsub a ha⟩
    · exact ⟨_, getElem?_set_afterPerform a hop, List.mem_append_right _ (List.mem_singleton.mpr rfl)⟩
  · rintro ⟨op', hop', ha⟩
    cases hk : u.ops[k]? with
    | none =>
      rw [(h.asIssued_of_new hk hop').1] at ha
      cases ha
    | some op =>
      have ofOld (hold : a ∈ op.performed) := (hu k a).mpr ⟨op, hk, hold⟩
      obtain ⟨op'', hop'', hcases⟩ := h.ops_getElem? hk
      obtain rfl := Option.some.inj (hop''.symm.trans hop')
      rcases hcases with rfl | ⟨b, extra, _, hs, hp, rfl, rfl⟩
      · obtain ⟨r, hr⟩ := ofOld ha
        exact ⟨r, .inl hr⟩
      · rcases List.mem_append.mp ha with hold | hnew
        · obtain ⟨r, hr⟩ := ofOld hold
          exact ⟨r, .inl hr⟩
        · obtain rfl := List.mem_singleton.mp hnew
          exact ⟨_, .inr ⟨op, extra, rfl, hs, hp, rfl, rfl⟩⟩

/-- Nothing is noted twice: what a step notes was not yet true, so it was not yet noted. -/
theorem Move.noted_history_nodup (h : Move u ev v) (hu : u.HistoryAgrees) : (State.noted u v).history.Nodup := by
  obtain ⟨hissued, hperformed, hcompleted, hnodup, _⟩ := hu
  have hv : v.history.Nodup := by
    rcases h.history_cases with heq | ⟨k, op, a, extra, hop, _, hp, rfl⟩
    · rwa [heq]
    · refine List.nodup_append'.mpr ⟨hnodup, List.nodup_singleton _, List.disjoint_singleton.mpr fun hmem => ?_⟩
      obtain ⟨op', hop', ha⟩ := (hperformed k a).mp ⟨_, hmem⟩
      obtain rfl := Option.some.inj (hop.symm.trans hop')
      exact hp ha
  have hissuedNew : List.Disjoint v.history (issuedSince u v) := by
    intro ln hold hnew
    obtain ⟨k, op, hk, _, rfl⟩ := mem_issuedSince.mp hnew
    obtain ⟨op', hop', _⟩ := (hissued k op).mp (h.issued_mem_history.mp hold)
    rw [List.getElem?_eq_none hk] at hop'
    cases hop'
  have hcompletedNew : List.Disjoint (v.history ++ issuedSince u v) (completedSince u v) := by
    intro ln hold hnew
    obtain ⟨k, _, hnot, rfl⟩ := mem_completedSince.mp hnew
    rcases List.mem_append.mp hold with hold | hold
    · rw [(hcompleted k).mp (h.completed_mem_history.mp hold)] at hnot
      cases hnot
    · obtain ⟨_, _, _, _, heq⟩ := mem_issuedSince.mp hold
      cases heq
  exact List.nodup_append'.mpr ⟨List.nodup_append'.mpr ⟨hv, issuedSince_nodup u v, hissuedNew⟩,
    completedSince_nodup u v, hcompletedNew⟩

/-- A perform that is noted is in the record. -/
theorem State.HistoryAgrees.mem_performed (hu : u.HistoryAgrees) {k : Nat} {a : Agent} {r : List TlbEntry}
    {op : Op} (hmem : .performed k a r ∈ u.history) (hop : u.ops[k]? = some op) : a ∈ op.performed := by
  obtain ⟨_, hperformed, _⟩ := hu
  obtain ⟨op', hop', ha⟩ := (hperformed k a).mp ⟨r, hmem⟩
  obtain rfl := Option.some.inj (hop.symm.trans hop')
  exact ha

/-- One perform is noted for each operation and agent. -/
theorem Move.performed_unique (h : Move u ev v) (hu : u.HistoryAgrees) {k : Nat} {a : Agent}
    {r r' : List TlbEntry} (hr : .performed k a r ∈ (State.noted u v).history)
    (hr' : .performed k a r' ∈ (State.noted u v).history) : r = r' := by
  obtain ⟨_, _, _, _, hunique⟩ := id hu
  rcases h.performed_mem_noted.mp hr with hold | ⟨op, extra, hop, _, hp, hv, rfl⟩ <;>
    rcases h.performed_mem_noted.mp hr' with hold' | ⟨op', extra', hop', _, hp', hv', rfl⟩
  · exact hunique k a r r' hold hold'
  · exact absurd (hu.mem_performed hold hop') hp'
  · exact absurd (hu.mem_performed hold' hop) hp
  · have hhistory := congrArg State.history (hv.symm.trans hv')
    simpa using hhistory

/-- The entries that a perform step notes as removed are those gone from the agent's TLB, the required ones among
them (R41, R60). -/
theorem removedAt_iff_withPerform {k : Nat} {op : Op} {a : Agent} {extra : List TlbEntry} {e : TlbEntry} :
    e ∈ op.removedAt u a extra ↔ e ∈ u.tlb a ∧ e ∉ (u.withPerform k op a extra).tlb a := by
  rw [State.withPerform_tlb, if_pos rfl, Op.mem_removedAt, Op.mem_keptAt, ← Bool.not_eq_true]
  tauto

/-- What a step adds to the history, and what is in a perform that it adds. -/
theorem Move.history_added (h : Move u ev v) :
    ∃ added, (State.noted u v).history = u.history ++ added ∧
      ∀ k a removed, .performed k a removed ∈ added →
        (∀ e, e ∈ removed ↔ e ∈ u.tlb a ∧ e ∉ v.tlb a) ∧
        ∃ op, u.ops[k]? = some op ∧ a ∈ op.scope ∧ a ∉ op.performed ∧ ∀ e ∈ op.required u a, e ∈ removed := by
  rcases h.history_cases with heq | ⟨k, op, a, extra, hop, hs, hp, rfl⟩
  · refine ⟨issuedSince u v ++ completedSince u v, ?_, fun k a removed hmem => ?_⟩
    · rw [State.noted, heq, List.append_assoc]
    · exact absurd hmem performed_not_mem_since
  · refine ⟨.performed k a (op.removedAt u a extra) ::
      (issuedSince u (u.withPerform k op a extra) ++ completedSince u (u.withPerform k op a extra)), ?_,
      fun k' a' removed hmem => ?_⟩
    · simp [State.noted]
    rcases List.mem_cons.mp hmem with hnew | hold
    · obtain ⟨rfl, rfl, rfl⟩ := HistoryEvent.performed.inj hnew
      refine ⟨fun e => removedAt_iff_withPerform, op, hop, hs, hp, fun e he => ?_⟩
      obtain ⟨hmem, hreq⟩ := Op.mem_required.mp he
      exact Op.mem_removedAt.mpr ⟨hmem, .inl hreq⟩
    · exact absurd hold performed_not_mem_since

end

@[simp] theorem Op.required_turn (s : State) (n : Nat) (op : Op) (a : Agent) :
    op.required (s.turn n) a = op.required s a := by
  simp only [Op.required, State.turn_tlb, Op.reqPred_turn]

/-- Settles O57: each kind of line is noted by the move that makes it true, and only by that. -/
theorem stepKeepsHistoryInAgreement : Obligations.StepKeepsHistoryInAgreement := by
  refine ⟨fun s t hs h => ?agreement, fun s t h => ?added⟩
  case agreement =>
    obtain ⟨n, ev, v, _, _, hmove, rfl⟩ := step_move h
    have hu : (s.turn n).HistoryAgrees := hs
    obtain ⟨hissued, hperformed, hcompleted, _⟩ := hs
    refine ⟨hmove.issued_agrees hissued, hmove.performed_agrees hperformed, fun k => ?_,
      hmove.noted_history_nodup hu, fun k a r r' => hmove.performed_unique hu⟩
    rw [hmove.completed_mem_noted, State.turn_history, hcompleted, State.turn_opComplete]
    constructor
    · rintro (hold | ⟨hnew, _⟩)
      · exact completionIsStable s _ k h hold
      · exact hnew
    · intro hv
      cases hk : s.opComplete k with
      | true => exact .inl rfl
      | false => exact .inr ⟨hv, rfl⟩
  case added =>
    obtain ⟨n, ev, v, _, _, hmove, rfl⟩ := step_move h
    simpa using hmove.history_added

end Sys2Proof.Machine

/-! The promise of the perform step, and of the instruction along a run (R60, R68). -/
namespace Sys2Proof.Machine

/-! ### The step that performs an operation at an agent -/

/-- What the step that performs `op` at `a` leaves: no entry in the TLB that meets the requirements, and every
incomplete access of the agent that used one among the waits. -/
theorem step_of_perform {s t : State} {k : Nat} {op : Op} {a : Agent} {extra : List TlbEntry} {rest : List Event}
    (h : step s = .next t) (hsched : s.schedule = .perform k a extra :: rest) (hop : s.ops[k]? = some op)
    (hs : a ∈ op.scope) (hp : a ∉ op.performed) :
    (∀ e ∈ t.tlb a, e ∈ s.tlb a ∧ op.reqPred s a e = false) ∧
      ∀ (j : Nat) (m : Access), s.inFlight[j]? = some m → m.agent = a → m.complete = false →
        (∃ e ∈ m.uses, op.reqPred s a e = true) → j ∈ (op.afterPerform s a).waits := by
  obtain ⟨t', hstep, htlb, _⟩ := step_perform extra rest hop hs hp
  rw [← hsched] at hstep
  obtain rfl : t' = t := Host.Outcome.next.inj (hstep.symm.trans h)
  refine ⟨fun e he => ?_, fun j m hm ha hc hu => Op.mem_afterPerform_waits.mpr (.inr ⟨m, hm, ha, hc, hu⟩)⟩
  rw [htlb, if_pos rfl, Op.mem_keptAt] at he
  exact ⟨he.1, he.2.1⟩

/-- An agent comes into `performed` by a perform step of the operation at that agent. -/
theorem step_newly_performed {s t : State} {k : Nat} {op' : Op} {a : Agent} (h : step s = .next t)
    (hop' : t.ops[k]? = some op') (ha : a ∈ op'.performed)
    (hnew : ∀ op, s.ops[k]? = some op → a ∉ op.performed) :
    ∃ op extra rest, s.ops[k]? = some op ∧ a ∈ op.scope ∧ s.schedule = .perform k a extra :: rest ∧
      op' = op.afterPerform s a := by
  rcases step_op_cases h hop' with hold | ⟨_, hnil, _⟩ | ⟨op, b, extra, rest, hsched, hop, hs, _, rfl⟩
  · exact absurd ha (hnew op' hold)
  · rw [hnil] at ha; cases ha
  · rcases List.mem_append.mp ha with hold | hb
    · exact absurd hold (hnew op hop)
    · obtain rfl := List.mem_singleton.mp hb
      exact ⟨op, extra, rest, hop, hs, hsched, rfl⟩

/-- One operation's waits are justified: the accesses are there, their agents are where it was performed, and they
used a translation that it requires gone. -/
def Op.WaitsJustified (s : State) (op : Op) : Prop :=
  ∀ j ∈ op.waits, ∃ m, s.inFlight[j]? = some m ∧ m.agent ∈ op.performed ∧ ∃ e ∈ m.uses, op.reqPred s m.agent e = true

theorem State.waitsAreJustified_iff (s : State) :
    s.WaitsAreJustified ↔ ∀ (k : Nat) (op : Op), s.ops[k]? = some op → op.WaitsJustified s := Iff.rfl

/-- A perform step adds justified waits to justified ones. -/
theorem Op.WaitsJustified.afterPerform {s : State} {op : Op} (h : op.WaitsJustified s) (a : Agent) :
    (op.afterPerform s a).WaitsJustified s := by
  intro j hj
  rcases Op.mem_afterPerform_waits.mp hj with hold | ⟨m, hm, rfl, _, hu⟩
  · obtain ⟨m, hm, ha, hu⟩ := h j hold
    exact ⟨m, hm, List.mem_append_left _ ha, hu⟩
  · exact ⟨m, hm, List.mem_append_right _ (List.mem_singleton.mpr rfl), hu⟩

/-- What justifies a wait stays: the accesses keep their agents and entries, and `ReqPred` its value. -/
theorem Op.WaitsJustified.of_step {s t : State} {op : Op} (h : step s = .next t) (hs : op.WaitsJustified s) :
    op.WaitsJustified t := by
  intro j hj
  obtain ⟨m, hm, ha, e, he, hreq⟩ := hs j hj
  obtain ⟨m', hm', rfl | ⟨rfl, _⟩⟩ := step_inFlight_getElem? h hm
  · exact ⟨m', hm', ha, e, he, by rwa [Op.reqPred_of_step h]⟩
  · exact ⟨_, hm', ha, e, he, by rwa [Op.reqPred_of_step h]⟩

/-- Settles O59: the step that brings an agent into `performed` is the perform step, and a record's waits are as they
were, none, or those of a perform step. -/
theorem performStepKeepsThePromise : Obligations.PerformStepKeepsThePromise := by
  refine ⟨fun s t k op' a h hop' ha hnew => ?promise, fun s t hs h => ?invariant⟩
  case promise =>
    obtain ⟨op, extra, rest, hop, hscope, hsched, rfl⟩ := step_newly_performed h hop' ha hnew
    exact ⟨op, hop, rfl, hscope, ⟨extra, rest, hsched⟩, step_of_perform h hsched hop hscope (hnew op hop)⟩
  case invariant =>
    rw [State.waitsAreJustified_iff] at hs ⊢
    intro k op' hop'
    refine Op.WaitsJustified.of_step h ?_
    rcases step_op_cases h hop' with hold | ⟨_, _, hnil⟩ | ⟨op, a, _, _, _, hop, _, _, rfl⟩
    · exact hs k op' hold
    · intro j hj
      rw [hnil] at hj
      cases hj
    · exact Op.WaitsJustified.afterPerform (hs k op hop) a

/-! ### Along a run -/

theorem Reaches.trans {s t u : State} (hst : Reaches s t) (htu : Reaches t u) : Reaches s u := by
  induction htu with
  | refl => exact hst
  | step _ h ih => exact ih.step h

/-- An access stays in a run, with its entries. -/
theorem Reaches.inFlight_getElem? {s t : State} (h : Reaches s t) {j : Nat} {m : Access}
    (hm : s.inFlight[j]? = some m) : ∃ m', t.inFlight[j]? = some m' ∧ m'.uses = m.uses := by
  induction h with
  | refl => exact ⟨m, hm, rfl⟩
  | step _ h ih =>
    obtain ⟨m', hm', huses⟩ := ih
    obtain ⟨m'', hm'', rfl | ⟨rfl, _⟩⟩ := step_inFlight_getElem? h hm'
    · exact ⟨m'', hm'', huses⟩
    · exact ⟨_, hm'', huses⟩

/-- The step from `u` to `v` performed operation `k`, issued as `issued`, at agent `a`, left no required entry there,
and put the accesses that used one among `waits`. -/
structure PerformedBy (u v : State) (k : Nat) (issued : Op) (a : Agent) (waits : List Nat) : Prop where
  step : step u = .next v
  before : ∃ op, u.ops[k]? = some op ∧ op.asIssued = issued ∧ a ∉ op.performed
  after : ∃ op, v.ops[k]? = some op ∧ op.asIssued = issued ∧ a ∈ op.performed
  move : ∃ extra rest, u.schedule = .perform k a extra :: rest
  gone : ∀ e ∈ v.tlb a, issued.reqPred u a e = false
  waited : ∀ (j : Nat) (m : Access), u.inFlight[j]? = some m → m.agent = a → m.complete = false →
    (∃ e ∈ m.uses, issued.reqPred u a e = true) → j ∈ waits

theorem PerformedBy.mono {u v : State} {k : Nat} {issued : Op} {a : Agent} {waits waits' : List Nat}
    (h : PerformedBy u v k issued a waits) (hw : ∀ j ∈ waits, j ∈ waits') : PerformedBy u v k issued a waits' :=
  { h with waited := fun j m hm ha hc hu => hw j (h.waited j m hm ha hc hu) }

/-- The step that brings an agent into `performed` is `PerformedBy`. -/
theorem performedBy_of_newly_performed {s t : State} {k : Nat} {op' : Op} {a : Agent} (h : step s = .next t)
    (hop' : t.ops[k]? = some op') (ha : a ∈ op'.performed)
    (hnew : ∀ op, s.ops[k]? = some op → a ∉ op.performed) : PerformedBy s t k op'.asIssued a op'.waits := by
  obtain ⟨hpromise, _⟩ := performStepKeepsThePromise
  obtain ⟨op, hop, hissued, _, hmove, hgone, hwaited⟩ := hpromise s t k op' a h hop' ha hnew
  refine ⟨h, ⟨op, hop, hissued.symm, hnew op hop⟩, ⟨op', hop', rfl, ha⟩, hmove, fun e he => ?_, ?_⟩
  · rw [hissued, Op.reqPred_asIssued]
    exact (hgone e he).2
  · simpa only [hissued, Op.reqPred_asIssued] using hwaited

/-- In a run that issues every operation itself, an agent in `performed` was brought there by a step of the run. -/
theorem Reaches.performedBy {s0 s : State} (h0 : s0.ops = []) (h : Reaches s0 s) {k : Nat} {op : Op} {a : Agent}
    (hop : s.ops[k]? = some op) (ha : a ∈ op.performed) :
    ∃ u v, Reaches s0 u ∧ Reaches v s ∧ PerformedBy u v k op.asIssued a op.waits := by
  induction h generalizing op with
  | refl => rw [h0] at hop; cases hop
  | @step t s hreach hstep ih =>
    by_cases hnew : ∀ op', t.ops[k]? = some op' → a ∉ op'.performed
    · exact ⟨t, s, hreach, .refl s, performedBy_of_newly_performed hstep hop ha hnew⟩
    · simp only [not_forall, not_not] at hnew
      obtain ⟨op', hop', ha'⟩ := hnew
      obtain ⟨u, v, hu, hv, hperf⟩ := ih hop' ha'
      obtain ⟨op'', hop'', hissued, _, l, hwaits⟩ := stepKeepsIssuedRecords t s k op' hstep hop'
      obtain rfl := Option.some.inj (hop''.symm.trans hop)
      refine ⟨u, v, hu, hv.step hstep, ?_⟩
      rw [hissued]
      exact hperf.mono fun j hj => by rw [hwaits]; exact List.mem_append_left l hj

/-- Settles O60: a complete operation was performed at its whole scope, each time by a step of the run, and the
accesses found then are among its waits, which are released. -/
theorem completedOperationKeepsItsPromise : Obligations.CompletedOperationKeepsItsPromise := by
  intro s0 s k op ⟨_, h0, _⟩ hreach hop hcomplete a ha
  obtain ⟨op', hop', hcomplete'⟩ := (State.opComplete_iff s k).mp hcomplete
  obtain rfl := Option.some.inj (hop'.symm.trans hop)
  obtain ⟨hperf, hreleased⟩ := (Op.complete_iff _ _).mp hcomplete'
  obtain ⟨u, v, hu, hv, hby⟩ := hreach.performedBy h0 hop ((hperf a).mpr ha)
  obtain ⟨opu, hopu, hissuedu, hnot⟩ := hby.before
  obtain ⟨opv, hopv, hissuedv, hin⟩ := hby.after
  refine ⟨u, v, opu, opv, hu, hby.step, hv, hopu, hissuedu, hnot, hopv, hissuedv, hin, hby.move, hby.gone,
    fun j m hm hagent hc huses => ?_⟩
  obtain ⟨m', hm', hr⟩ := hreleased j (hby.waited j m hm hagent hc huses)
  obtain ⟨m'', hm'', huses'⟩ := (Reaches.trans (.step (.refl u) hby.step) hv).inFlight_getElem? hm
  obtain rfl := Option.some.inj (hm'.symm.trans hm'')
  exact ⟨m', hm', huses', (Access.released_iff _ _).mp hr⟩

end Sys2Proof.Machine

/-! The operand: granule, range, level hint, IPA space and reserved bits (R76 to R84, R105). -/
namespace Sys2Proof.Machine

/-! ### The range -/

/-- `BaseADDR` is the low 37 bits of the operand (R75). -/
theorem operandBaseADDR_toNat (v : Word) : (operandBaseADDR v).toNat = v.toNat % 2 ^ 37 := by
  rw [operandBaseADDR, BitVec.extractLsb'_toNat, Nat.shiftRight_zero]

/-- A granule has at least 4K and at most 64K bytes, each dividing the next (R76). -/
theorem Granule.bytes_dvd_64K (g : Granule) : g.bytes ∣ 65536 := by
  cases g <;> decide

theorem Granule.bytes_le (g : Granule) : g.bytes ≤ 65536 := Nat.le_of_dvd (by decide) g.bytes_dvd_64K

theorem Granule.bytes_pos (g : Granule) : 0 < g.bytes := Nat.two_pow_pos _

/-- The bytes that one unit of `BaseADDR` stands for (R78). -/
def rangeUnit (cfg : Config) (ds : Bool) (g : Granule) : Nat :=
  if cfg.featLPA2 = true ∧ ds = true then 65536 else g.bytes

theorem rangeBase_eq (cfg : Config) (ds : Bool) (g : Granule) (v : Word) :
    rangeBase cfg ds g v = v.toNat % 2 ^ 37 * rangeUnit cfg ds g := by
  rw [rangeBase, operandBaseADDR_toNat, rangeUnit]
  simp only [Bool.and_eq_true]
  split <;> rfl

theorem Granule.bytes_dvd_rangeUnit (cfg : Config) (ds : Bool) (g : Granule) : g.bytes ∣ rangeUnit cfg ds g := by
  rw [rangeUnit]
  split
  · exact g.bytes_dvd_64K
  · exact Nat.dvd_refl _

theorem rangeUnit_le (cfg : Config) (ds : Bool) (g : Granule) : rangeUnit cfg ds g ≤ 65536 := by
  rw [rangeUnit]
  split
  · exact Nat.le_refl _
  · exact g.bytes_le

/-- The start is at most the largest field in the largest unit. -/
theorem rangeBase_le (cfg : Config) (ds : Bool) (g : Granule) (v : Word) :
    rangeBase cfg ds g v ≤ (2 ^ 37 - 1) * rangeUnit cfg ds g := by
  rw [rangeBase_eq]
  exact Nat.mul_le_mul_right _ (Nat.le_pred_of_lt (Nat.mod_lt _ (by decide)))

/-- Settles O7: the start is a field of 37 bits times a unit that the granule's size divides. -/
theorem rangeStartIsGranuleAligned : Obligations.RangeStartIsGranuleAligned := by
  refine ⟨by decide, by decide, fun cfg ds g v => ⟨rangeBase_eq cfg ds g v, ?aligned, ?bound, fun hsmall => ?small⟩⟩
  case aligned =>
    rw [rangeBase_eq]
    exact Dvd.dvd.mul_left (g.bytes_dvd_rangeUnit cfg ds) _
  case bound =>
    have hle := rangeBase_le cfg ds g v
    have hunit := rangeUnit_le cfg ds g
    omega
  case small =>
    have hle := rangeBase_le cfg ds g v
    rw [rangeUnit, if_neg hsmall] at hle
    refine ⟨?_, ?_⟩ <;> rintro rfl <;> simp only [Granule.bytes, Granule.shift] at hle <;> omega

/-- The length in granules (R79). -/
def rangeGranules (v : Word) : Nat := ((operandNUM v).toNat + 1) * 2 ^ (5 * (operandSCALE v).toNat + 1)

theorem rangeLen_eq (g : Granule) (v : Word) : rangeLen g v = rangeGranules v * g.bytes := rfl

theorem rangeGranules_even (v : Word) : Even (rangeGranules v) := by
  rw [rangeGranules, pow_succ, ← Nat.mul_assoc]
  exact Nat.even_mul.mpr (.inr even_two)

theorem rangeGranules_pos (v : Word) : 0 < rangeGranules v := Nat.mul_pos (Nat.succ_pos _) (Nat.two_pow_pos _)

/-- `NUM` is at most 31 and `SCALE` at most 3. -/
theorem rangeGranules_le (v : Word) : rangeGranules v ≤ 2 ^ 21 := by
  have hnum := (operandNUM v).isLt
  have hscale := (operandSCALE v).isLt
  calc rangeGranules v ≤ 2 ^ 5 * 2 ^ (5 * 3 + 1) :=
        Nat.mul_le_mul hnum (Nat.pow_le_pow_right (by decide) (by omega))
    _ = 2 ^ 21 := by decide

/-- Settles O8: the count of granules is the product of R79, whose second factor is even. -/
theorem rangeLengthInGranules : Obligations.RangeLengthInGranules := by
  intro g v
  have heven := rangeGranules_even v
  have hpos := rangeGranules_pos v
  have htwo : 2 ≤ rangeGranules v := by
    obtain ⟨m, hm⟩ := heven
    omega
  refine ⟨rangeGranules v, rangeLen_eq g v, heven, htwo, rangeGranules_le v, ?_, ?_, ?_, ?_⟩ <;>
    intro hscale <;> simp only [rangeGranules, hscale] <;> exact Nat.mul_comm _ _

theorem rangeLen_pos (g : Granule) (v : Word) : 0 < rangeLen g v :=
  Nat.mul_pos (rangeGranules_pos v) g.bytes_pos

theorem rangeLen_le (g : Granule) (v : Word) : rangeLen g v ≤ 2 ^ 37 :=
  calc rangeLen g v ≤ 2 ^ 21 * 65536 := Nat.mul_le_mul (rangeGranules_le v) g.bytes_le
    _ = 2 ^ 37 := by decide

/-- Settles O9: start and length have their largest values together, in the operand of all ones. -/
theorem rangeEndIsExact : Obligations.RangeEndIsExact := by
  refine ⟨fun cfg ds g v => ⟨rfl, Nat.lt_add_of_pos_right (rangeLen_pos g v), ?_⟩,
    BitVec.allOnes 64, by decide, fun cfg ds => ?_⟩
  · have hbase := (rangeBase_le cfg ds g v).trans (Nat.mul_le_mul_left _ (rangeUnit_le cfg ds g))
    exact Nat.add_le_add hbase (rangeLen_le g v)
  · have hunit : rangeUnit cfg ds .g64K = 65536 := by
      rw [rangeUnit]
      split <;> rfl
    have hbase : rangeBase cfg ds .g64K (BitVec.allOnes 64) = (2 ^ 37 - 1) * 2 ^ 16 := by
      rw [rangeBase_eq, hunit]
      decide
    have hlen : rangeLen .g64K (BitVec.allOnes 64) = 2 ^ 37 := by decide
    rw [rangeEnd, hbase, hlen]
    decide

/-! ### The level hint -/

theorem ttlLevel_00 {cfg : Config} {v : Word} (h : operandTTL v = 0b00#2) : ttlLevel cfg v = .any := by
  simp [ttlLevel, h]

theorem ttlLevel_10 {cfg : Config} {v : Word} (h : operandTTL v = 0b10#2) : ttlLevel cfg v = .l2 := by
  simp [ttlLevel, h]

theorem ttlLevel_11 {cfg : Config} {v : Word} (h : operandTTL v = 0b11#2) : ttlLevel cfg v = .l3 := by
  simp [ttlLevel, h]

/-- The hint 0b01, with its reserved case (R81, D18). -/
theorem ttlLevel_01 {cfg : Config} {v : Word} (h : operandTTL v = 0b01#2) :
    ttlLevel cfg v =
      if operandTG v = 0b10#2 ∧ cfg.featLPA2 = false ∧ cfg.ttl01Policy = .as00 then .any else .l1 := by
  cases hl : cfg.featLPA2 <;> cases hp : cfg.ttl01Policy <;> simp [ttlLevel, h, hl, hp]

/-- Settles O10, one value of `TTL` after another. -/
theorem levelHintTable : Obligations.LevelHintTable := by
  intro cfg v
  refine ⟨ttlLevel_00, fun h hlive => ?_, fun h htg hl => ?_, ttlLevel_10, ttlLevel_11⟩
  · rw [ttlLevel_01 h, if_neg fun hres => hlive ⟨hres.1, hres.2.1⟩]
  · simp only [ttlLevel_01 h, htg, hl, true_and]

/-- The levels a hint admits (R99). -/
theorem TtlLevel.admits_iff (l : TtlLevel) (n : Int) :
    l.admits n = true ↔ l = .any ∨ (l = .l1 ∧ n = 1) ∨ (l = .l2 ∧ n = 2) ∨ (l = .l3 ∧ n = 3) := by
  cases l <;> simp [TtlLevel.admits]

/-! ### The IPA space -/

/-- Settles O11: the premises of each row choose one branch of `nsReading`. -/
theorem ipaSpaceTable : Obligations.IpaSpaceTable := by
  intro cfg n op _
  refine ⟨fun hrme => ?rme, fun hrme hsel2 => ?sel2, fun hrme hsel2 => ?neither⟩
  case rme =>
    refine ⟨?_, ?_, ?_⟩ <;> intro hss <;> simp [Op.nsReading, Machine.nsReading, spaceOfNS, hrme, hss]
  case sel2 =>
    refine ⟨fun hss => ?_, fun hss hel => ?_, fun hss hel => ?_⟩
    · simp [Op.nsReading, Machine.nsReading, spaceOfNS, hrme, hsel2, hss]
    · simp [Op.nsReading, Machine.nsReading, hrme, hsel2, hss, hel]
    · simp [Op.nsReading, Machine.nsReading, hrme, hsel2, hss, hel]
  case neither =>
    refine ⟨?_, ?_⟩ <;> intro hss <;> simp [Op.nsReading, Machine.nsReading, hrme, hsel2, hss]

/-- Where bit 63 is res0 it names no space (R82). -/
theorem nsReading_of_isRes0 {cfg : Config} {ss : SecurityState} {el : EL} {ns : Bool}
    (h : (Machine.nsReading cfg ss el ns).isRes0 = true) (ns' : Bool) :
    Machine.nsReading cfg ss el ns' = Machine.nsReading cfg ss el ns := by
  cases ss <;> simp only [Machine.nsReading] at h ⊢ <;> split_ifs at h ⊢ <;> rfl

/-! ### Reserved bits -/

/-- Under `no_guarantee` a reserved bit that is set leaves no guarantee (R84). -/
theorem Op.guarantee_of_reserved_bits {cfg : Config} {op : Op} (hpol : cfg.res0Policy = .noGuarantee)
    (h : operandRes0 op.operand ≠ 0#15 ∨ ((op.nsReading cfg).isRes0 = true ∧ operandNS op.operand = true)) :
    op.guarantee cfg = false := by
  rw [← Bool.not_eq_true, Op.guarantee_iff]
  rintro ⟨_, hclean, _⟩
  obtain ⟨hres0, hns⟩ := (res0Clean_iff _ _ _).mp hclean hpol
  rcases h with hne | ⟨hr, hset⟩
  · exact hne hres0
  · rw [hns hr] at hset
    cases hset

/-- Nothing is required without a guarantee (R97). -/
theorem Op.required_of_not_guarantee {s : State} {op : Op} (h : op.guarantee s.cfg = false) (a : Agent) :
    op.required s a = [] := by
  rw [Op.required, List.filter_eq_nil_iff]
  intro e _
  rw [Op.reqPred_of_not_guarantee h]
  exact Bool.false_ne_true

/-! ### What an operand's bits below bit 48 decide -/

/-- A field below bit 48 depends on those bits alone. -/
theorem extractLsb'_eq_of_mod_eq {v w : Word} (h : v.toNat % 2 ^ 48 = w.toNat % 2 ^ 48) {lo len : Nat}
    (hle : lo + len ≤ 48) : v.extractLsb' lo len = w.extractLsb' lo len := by
  ext i hi
  have hlt : lo + i < 48 := by omega
  have hbit := congrArg (Nat.testBit · (lo + i)) h
  simp only [Nat.testBit_mod_two_pow, hlt, decide_true, Bool.true_and] at hbit
  simpa [BitVec.getLsbD] using hbit

/-- Two operands agree in the fields that say which granule, range and level are meant (R75). -/
structure SameRange (v w : Word) : Prop where
  tg : operandTG v = operandTG w
  scale : operandSCALE v = operandSCALE w
  num : operandNUM v = operandNUM w
  ttl : operandTTL v = operandTTL w
  base : operandBaseADDR v = operandBaseADDR w

theorem sameRange_of_mod_eq {v w : Word} (h : v.toNat % 2 ^ 48 = w.toNat % 2 ^ 48) : SameRange v w where
  tg := extractLsb'_eq_of_mod_eq h (by decide)
  scale := extractLsb'_eq_of_mod_eq h (by decide)
  num := extractLsb'_eq_of_mod_eq h (by decide)
  ttl := extractLsb'_eq_of_mod_eq h (by decide)
  base := extractLsb'_eq_of_mod_eq h (by decide)

section
variable {v w : Word} (h : SameRange v w)
include h

theorem SameRange.rangeBase_eq (cfg : Config) (ds : Bool) (g : Granule) :
    rangeBase cfg ds g v = rangeBase cfg ds g w := by
  simp only [rangeBase, h.base]

theorem SameRange.rangeEnd_eq (cfg : Config) (ds : Bool) (g : Granule) :
    rangeEnd cfg ds g v = rangeEnd cfg ds g w := by
  simp only [rangeEnd, rangeLen, h.rangeBase_eq, h.num, h.scale]

theorem SameRange.ttlLevel_eq (cfg : Config) : ttlLevel cfg v = ttlLevel cfg w := by
  simp only [ttlLevel, h.ttl, h.tg]

end

/-- Where reserved bits are ignored and bit 63 is read alike, an operation requires what one with the same range
requires. -/
theorem Op.reqPred_of_sameRange {s : State} {op : Op} {v : Word} (hpol : s.cfg.res0Policy = .ignore)
    (hns : ({ op with operand := v } : Op).nsReading s.cfg = op.nsReading s.cfg) (h : SameRange v op.operand)
    (a : Agent) : ({ op with operand := v } : Op).reqPred s a = op.reqPred s a := by
  funext e
  have hguarantee : ({ op with operand := v } : Op).guarantee s.cfg = op.guarantee s.cfg := by
    simp only [Op.guarantee, hns, res0Clean, hpol, Op.granule, Op.unpredictable, h.tg, h.ttl, h.rangeBase_eq]
  have hkind : ({ op with operand := v } : Op).kindOK s.cfg e = op.kindOK s.cfg e := by
    simp only [Op.kindOK, h.ttlLevel_eq, h.ttl]
  have hrange (g : Granule) : ({ op with operand := v } : Op).inRange s.cfg g e = op.inRange s.cfg g e := by
    simp only [Op.inRange, h.rangeBase_eq, h.rangeEnd_eq]
  have hagent : ({ op with operand := v } : Op).agentOK s a e = op.agentOK s a e := by cases a <;> rfl
  simp only [Op.reqPred, hguarantee, hkind, hns, hrange, hagent, Op.granule, h.tg]

/-- Settles O12: `no_guarantee` takes the guarantee away, and `ignore` leaves the fields below bit 48 and what bit 63
is read as. -/
theorem reservedOperandBits : Obligations.ReservedOperandBits := by
  refine ⟨fun s op a hpol hbits => ?noGuarantee, fun s op a v hpol hns hmod => ?ignored⟩
  case noGuarantee => exact Op.required_of_not_guarantee (Op.guarantee_of_reserved_bits hpol hbits) a
  case ignored =>
    have hreading : ({ op with operand := v } : Op).nsReading s.cfg = op.nsReading s.cfg := by
      rcases hns with heq | hres0
      · simp only [Op.nsReading, heq]
      · exact nsReading_of_isRes0 hres0 _
    rw [Op.required, Op.reqPred_of_sameRange hpol hreading (sameRange_of_mod_eq hmod), Op.required]

/-! ### Unpredictable ranges -/

/-- Bits `lo` to `lo + len` of a multiple of `2^lo` are zero exactly when it is a multiple of `2^(lo + len)`. -/
theorem div_mod_ne_zero_iff {n lo len : Nat} (h : 2 ^ lo ∣ n) : n / 2 ^ lo % 2 ^ len ≠ 0 ↔ ¬2 ^ (lo + len) ∣ n := by
  obtain ⟨q, rfl⟩ := h
  rw [Nat.mul_div_cancel_left q (Nat.two_pow_pos lo), pow_add, Nat.mul_dvd_mul_iff_left (Nat.two_pow_pos lo),
    Nat.dvd_iff_mod_eq_zero]

/-- With a granule the start is a multiple of its size (R78). -/
theorem Granule.bytes_dvd_rangeBase (cfg : Config) (ds : Bool) (g : Granule) (v : Word) :
    2 ^ g.shift ∣ rangeBase cfg ds g v := by
  rw [Machine.rangeBase_eq]
  exact Dvd.dvd.mul_left (g.bytes_dvd_rangeUnit cfg ds) _

/-- With the granule named, the range is unpredictable by the rows of that granule (R105). -/
theorem Op.unpredictable_of_granule {cfg : Config} {op : Op} {g : Granule}
    (hg : granuleOfTG (operandTG op.operand) = some g) :
    op.unpredictable cfg = rangeUnpredictable g (operandTTL op.operand) (rangeBase cfg op.ds g op.operand) := by
  rw [Op.unpredictable, Op.granule, hg, Option.any_some]

/-- In a row of R105, which names `len` bits above the granule's own, unpredictable means misaligned. -/
theorem Op.unpredictable_iff_of_row {cfg : Config} {op : Op} {g : Granule} {ttl : BitVec 2} {len : Nat}
    (hrow : ∀ base, rangeUnpredictable g ttl base = true ↔ base / 2 ^ g.shift % 2 ^ len ≠ 0)
    (hg : granuleOfTG (operandTG op.operand) = some g) (httl : operandTTL op.operand = ttl) :
    op.unpredictable cfg = true ↔ ¬2 ^ (g.shift + len) ∣ rangeBase cfg op.ds g op.operand := by
  rw [Op.unpredictable_of_granule hg, httl, hrow, div_mod_ne_zero_iff (g.bytes_dvd_rangeBase cfg op.ds op.operand)]

/-- A granule and a hint without a row are never unpredictable (R105). -/
theorem Op.unpredictable_of_no_row {cfg : Config} {op : Op}
    (h : operandTG op.operand = 0b00#2 ∨ operandTTL op.operand = 0b00#2 ∨ operandTTL op.operand = 0b11#2 ∨
      (operandTG op.operand = 0b10#2 ∧ operandTTL op.operand = 0b01#2)) : op.unpredictable cfg = false := by
  rcases h with htg | httl | httl | ⟨htg, httl⟩
  · exact Op.unpredictable_of_reserved cfg htg
  · rw [← Bool.not_eq_true, Op.unpredictable_iff]
    simp [rangeUnpredictable_iff, httl]
  · rw [← Bool.not_eq_true, Op.unpredictable_iff]
    simp [rangeUnpredictable_iff, httl]
  · rw [Op.unpredictable_of_granule ((granuleOfTG_eq_g16K _).mpr htg), ← Bool.not_eq_true]
    simp [rangeUnpredictable_iff, httl]

/-- Settles O14: the bits that a row names lie just above those that the granule's alignment makes zero. -/
theorem unpredictableMeansMisalignedStart : Obligations.UnpredictableMeansMisalignedStart := by
  intro cfg op
  have row4K01 (base : Nat) : rangeUnpredictable .g4K 0b01#2 base = true ↔ base / 2 ^ 12 % 2 ^ 18 ≠ 0 := by
    simp [rangeUnpredictable_iff]
  have row4K10 (base : Nat) : rangeUnpredictable .g4K 0b10#2 base = true ↔ base / 2 ^ 12 % 2 ^ 9 ≠ 0 := by
    simp [rangeUnpredictable_iff]
  have row16K10 (base : Nat) : rangeUnpredictable .g16K 0b10#2 base = true ↔ base / 2 ^ 14 % 2 ^ 11 ≠ 0 := by
    simp [rangeUnpredictable_iff]
  have row64K01 (base : Nat) : rangeUnpredictable .g64K 0b01#2 base = true ↔ base / 2 ^ 16 % 2 ^ 26 ≠ 0 := by
    simp [rangeUnpredictable_iff]
  have row64K10 (base : Nat) : rangeUnpredictable .g64K 0b10#2 base = true ↔ base / 2 ^ 16 % 2 ^ 13 ≠ 0 := by
    simp [rangeUnpredictable_iff]
  exact ⟨fun htg => Op.unpredictable_iff_of_row row4K01 ((granuleOfTG_eq_g4K _).mpr htg),
    fun htg => Op.unpredictable_iff_of_row row4K10 ((granuleOfTG_eq_g4K _).mpr htg),
    fun htg => Op.unpredictable_iff_of_row row16K10 ((granuleOfTG_eq_g16K _).mpr htg),
    fun htg => Op.unpredictable_iff_of_row row64K01 ((granuleOfTG_eq_g64K _).mpr htg),
    fun htg => Op.unpredictable_iff_of_row row64K10 ((granuleOfTG_eq_g64K _).mpr htg), Op.unpredictable_of_no_row⟩

end Sys2Proof.Machine

/-! The required set under every policy, and what an operation without guarantee requires (R64, R97 to R108). -/
namespace Sys2Proof.Machine

/-! ### The clauses of `ReqPred` -/

/-- `KindOK` in words (R99, R100). -/
theorem Op.kindOK_iff (cfg : Config) (op : Op) (e : TlbEntry) :
    op.kindOK cfg e = true ↔ e.kind = .s2Only ∧ e.leaf = true ∧
      ((e.fmt = .d64 ∧ (ttlLevel cfg op.operand = .any ∨ (ttlLevel cfg op.operand = .l1 ∧ e.level = 1) ∨
          (ttlLevel cfg op.operand = .l2 ∧ e.level = 2) ∨ (ttlLevel cfg op.operand = .l3 ∧ e.level = 3))) ∨
        (cfg.featD128 = true ∧ e.fmt = .d128 ∧ operandTTL op.operand = 0b00#2)) := by
  simp only [Op.kindOK, Bool.and_eq_true, Bool.or_eq_true, beq_iff_eq, TtlLevel.admits_iff, and_assoc]

/-- Settles O18: `KindOK` in words, and the hint of `TTL` 0b00 admits any level. -/
theorem kindOfRequiredEntry : Obligations.KindOfRequiredEntry := by
  intro cfg op e
  refine ⟨op.kindOK_iff cfg e, fun httl hkind hleaf hfmt => ?_⟩
  exact (op.kindOK_iff cfg e).mpr ⟨hkind, hleaf, .inl ⟨hfmt, .inl (ttlLevel_00 httl)⟩⟩

/-- The agent clause for a PE (R64, R108). -/
theorem Op.agentOK_pe (s : State) (op : Op) (n : Nat) (e : TlbEntry) :
    op.agentOK s (.pe n) e = true ↔
      n = op.issuer ∨ op.ss ≠ .secure ∨ (scrEff s.cfg (s.peAt n).ctl).eel2 = op.eel2 := by
  simp [Op.agentOK, or_assoc]

/-- The agent clause for a System MMU (R108). -/
theorem Op.agentOK_smmu (s : State) (op : Op) (n : Nat) (e : TlbEntry) :
    op.agentOK s (.smmu n) e = true ↔
      if op.ss = .secure then op.vmid = 0 ∧ e.vmid = 0 else s.cfg.smmuInScope = true := by
  by_cases hss : op.ss = .secure <;> simp [Op.agentOK, hss]

/-- Settles O20, a PE and a System MMU apart. -/
theorem agentClause : Obligations.AgentClause := by
  intro s op e n
  refine ⟨?issuer, fun hss => ?otherRegime, fun hss hn => ?secure, fun hss => ?smmuSecure, fun hss => ?smmu⟩
  case issuer => exact (op.agentOK_pe s _ e).mpr (.inl rfl)
  case otherRegime => exact (op.agentOK_pe s n e).mpr (.inr (.inl hss))
  case secure =>
    rw [Op.agentOK_pe, scrEff]
    simp only [hn, hss, ne_eq, not_true_eq_false, false_or]
    split <;> rfl
  case smmuSecure => rw [Op.agentOK_smmu, if_pos hss]
  case smmu => rw [Op.agentOK_smmu, if_neg hss]

/-! ### The required set -/

/-- Settles O16: the requirements of R97, with the guarantee, the kind and the range in words. -/
theorem requiredEntryMeetsEveryRequirement : Obligations.RequiredEntryMeetsEveryRequirement := by
  intro s op a e
  rw [Op.mem_required, Op.reqPred_iff, Op.guarantee_iff, res0Clean_iff, Op.kindOK_iff, Op.inRange_iff]
  refine and_congr_right fun _ => ⟨?_, ?_⟩
  · rintro ⟨⟨_, hres0, _, hpred⟩, ⟨hkind, hleaf, hlevel⟩, hregime, hss, hspace, hvmid, hgranule,
      ⟨hwithin, hoverlap⟩, hagent⟩
    exact ⟨e.granule, hgranule.symm, hres0, hpred, hkind, hleaf, hlevel, hregime, hss, hspace.symm, hvmid, rfl,
      hwithin, hoverlap, hagent⟩
  · rintro ⟨g, hgranule, hres0, hpred, hkind, hleaf, hlevel, hregime, hss, hspace, hvmid, rfl, hwithin, hoverlap,
      hagent⟩
    have hsome : op.granule.isSome = true := Option.isSome_iff_exists.mpr ⟨_, hgranule⟩
    have hspaceSome : (op.nsReading s.cfg).space.isSome = true := Option.isSome_iff_exists.mpr ⟨_, hspace⟩
    exact ⟨⟨hsome, hres0, hspaceSome, hpred⟩, ⟨hkind, hleaf, hlevel⟩, hregime, hss, hspace.symm, hvmid,
      hgranule.symm, ⟨hwithin, hoverlap⟩, hagent⟩

/-- What leaves an operation without guarantee (R82, R84, R104, R106). -/
theorem Op.not_guarantee_of {cfg : Config} {op : Op}
    (h : operandTG op.operand = 0b00#2 ∨ op.unpredictable cfg = true ∨ (op.nsReading cfg).space = none ∨
      (cfg.res0Policy = .noGuarantee ∧ (operandRes0 op.operand ≠ 0#15 ∨
        ((op.nsReading cfg).isRes0 = true ∧ operandNS op.operand = true)))) : op.guarantee cfg = false := by
  rcases h with htg | hpred | hspace | ⟨hpol, hbits⟩
  · have hnone : op.granule = none := (granuleOfTG_eq_none _).mpr htg
    simp [Op.guarantee, hnone]
  · simp [Op.guarantee, hpred]
  · simp [Op.guarantee, hspace]
  · exact Op.guarantee_of_reserved_bits hpol hbits

/-- Settles O15: without a guarantee `ReqPred` holds of nothing, so the perform step removes exactly `K`. -/
theorem nothingRequiredWithoutGuarantee : Obligations.NothingRequiredWithoutGuarantee := by
  intro s k op a hop h
  have hnone := Op.not_guarantee_of h
  refine ⟨Op.required_of_not_guarantee hnone a, fun hs hp K => ?_⟩
  obtain ⟨t, hstep, htlb, hops, _⟩ := step_perform K [] hop hs hp
  refine ⟨t, hstep, ?_, op.afterPerform s a, ?_, rfl⟩
  · rw [htlb, if_pos rfl, Op.keptAt]
    simp [Op.reqPred_of_not_guarantee hnone]
  · rw [hops]
    exact getElem?_set_afterPerform a hop

/-! ### The policies (R81, R84, R102, R108) -/

/-- The state under other policies. -/
def State.withPolicies (s : State) (r : Res0Policy) (p : Ttl01Policy) (m : RangeMatch) (u : Bool) : State :=
  { s with cfg := { s.cfg with res0Policy := r, ttl01Policy := p, rangeMatch := m, smmuInScope := u } }

section
variable {s : State} {op : Op} {a : Agent} {e : TlbEntry} (r : Res0Policy) (p : Ttl01Policy) (m : RangeMatch)
  (u : Bool)

/-- Every policy guarantees what `no_guarantee` does (R84). -/
theorem Op.guarantee_of_noGuarantee
    (h : op.guarantee (s.withPolicies .noGuarantee .literalLevel1 .within false).cfg = true) :
    op.guarantee (s.withPolicies r p m u).cfg = true := by
  rw [Op.guarantee_iff, res0Clean_iff] at h ⊢
  obtain ⟨hgranule, hclean, hspace, hpred⟩ := h
  exact ⟨hgranule, fun _ => hclean rfl, hspace, hpred⟩

/-- Another policy reads a hint as `literal_level1` does, or as any level (R81). -/
theorem ttlLevel_withPolicies (v : Word) :
    ttlLevel (s.withPolicies r p m u).cfg v =
        ttlLevel (s.withPolicies .noGuarantee .literalLevel1 .within false).cfg v ∨
      ttlLevel (s.withPolicies r p m u).cfg v = .any := by
  cases p with
  | literalLevel1 => exact .inl rfl
  | as00 =>
    by_cases httl : operandTTL v = 0b01#2
    · rw [ttlLevel_01 httl, ttlLevel_01 httl]
      split
      · exact .inr rfl
      · exact .inl (by simp [State.withPolicies])
    · exact .inl (by simp [ttlLevel, httl])

/-- Every policy admits the kinds that `literal_level1` does (R99). -/
theorem Op.kindOK_of_literalLevel1
    (h : op.kindOK (s.withPolicies .noGuarantee .literalLevel1 .within false).cfg e = true) :
    op.kindOK (s.withPolicies r p m u).cfg e = true := by
  rw [Op.kindOK_iff] at h ⊢
  obtain ⟨hkind, hleaf, ⟨hfmt, hlevel⟩ | hd128⟩ := h
  · refine ⟨hkind, hleaf, .inl ⟨hfmt, ?_⟩⟩
    rcases ttlLevel_withPolicies (s := s) r p m u op.operand with heq | hany
    · rwa [heq]
    · exact .inl hany
  · exact ⟨hkind, hleaf, .inr hd128⟩

/-- An entry that covers an address and is contained in the range overlaps it (R102). -/
theorem Op.inRange_of_within (hsize : 0 < e.size) {g : Granule}
    (h : op.inRange (s.withPolicies .noGuarantee .literalLevel1 .within false).cfg g e = true) :
    op.inRange (s.withPolicies r p m u).cfg g e = true := by
  rw [Op.inRange_iff] at h ⊢
  have hwithin : rangeBase s.cfg op.ds g op.operand ≤ e.ipaBase ∧
      e.ipaBase + e.size ≤ rangeEnd s.cfg op.ds g op.operand := h.1 rfl
  have hoverlap : e.ipaBase < rangeEnd s.cfg op.ds g op.operand ∧
      rangeBase s.cfg op.ds g op.operand < e.ipaBase + e.size := by omega
  exact ⟨fun _ => hwithin, fun _ => hoverlap⟩

/-- Every policy includes the agents that are included without `SMMU_IN_SCOPE` (R108). -/
theorem Op.agentOK_of_not_smmuInScope
    (h : op.agentOK (s.withPolicies .noGuarantee .literalLevel1 .within false) a e = true) :
    op.agentOK (s.withPolicies r p m u) a e = true := by
  cases a with
  | pe n => exact h
  | smmu n =>
    rw [Op.agentOK_smmu] at h ⊢
    split at h
    · rwa [if_pos ‹_›]
    · cases h

end

/-- Settles O21: a clause that reads a policy holds under every choice where it holds under the default one, and the
other clauses read none. -/
theorem defaultPoliciesPromiseLeast : Obligations.DefaultPoliciesPromiseLeast := by
  intro s op a e r p m u hsize h
  obtain ⟨hguarantee, hkind, hregime, hss, hspace, hvmid, hgranule, hrange, hagent⟩ :=
    (Op.reqPred_iff (s.withPolicies .noGuarantee .literalLevel1 .within false) op a e).mp h
  exact (Op.reqPred_iff (s.withPolicies r p m u) op a e).mpr
    ⟨Op.guarantee_of_noGuarantee r p m u hguarantee, Op.kindOK_of_literalLevel1 r p m u hkind, hregime, hss, hspace,
      hvmid, hgranule, Op.inRange_of_within r p m u hsize hrange, Op.agentOK_of_not_smmuInScope r p m u hagent⟩

end Sys2Proof.Machine

/-! What an execution answers on each path, and the word that is placed to run next. -/
namespace Sys2Proof.Machine

/-! ### Control fields (R30, R32, R33) -/

/-- Settles O34, row by row. -/
theorem targetSecurityStateTable : Obligations.TargetSecurityStateTable := by
  intro cfg c scr
  have hscr : scrEff cfg c = scr := rfl
  exact ⟨fun hrme hnse hns => by simp [targetSS, hscr, hrme, hnse, hns],
    fun hrme hnse hns => by simp [targetSS, hscr, hrme, hnse, hns],
    fun hrme hnse hns => by simp [targetSS, hscr, hrme, hnse, hns],
    fun hrme hnse hns => by simp [targetSS, hscr, hrme, hnse, hns],
    fun hrme hns => by simp [targetSS, hscr, hrme, hns], fun hrme hns => by simp [targetSS, hscr, hrme, hns]⟩

/-- Settles O33: the listed rule is the predicate that holds in the listed states. -/
theorem el2EnabledIsConstrainedAndOpen : Obligations.El2EnabledIsConstrainedAndOpen := by
  refine ⟨fun cfg c h => ?_, fun cfg c h hel => ?_, fun cfg l h => ⟨.listed l, fun c hel => ?_⟩⟩
  · rw [el2Enabled, h, Bool.false_and]
  · exact (el2Enabled_iff cfg c).mpr ⟨h, .inl hel⟩
  · simp [el2Enabled_iff, el2EnabledBody, h, hel]

/-- `DS_eff` is the bit that `DS_SOURCE` names (R30). -/
theorem dsEff_eq (cfg : Config) (c : Controls) :
    dsEff cfg c = if cfg.dsSource = .tcrEL1 then c.tcrDS else c.vtcrDS := by
  cases h : cfg.dsSource <;> simp [dsEff, h]

theorem scrEff_eel2 (cfg : Config) (c : Controls) :
    (scrEff cfg c).eel2 = if cfg.haveEL3 then c.scr.eel2 else cfg.scrEff.eel2 := by
  rw [scrEff]
  split <;> rfl

theorem nvEff_iff (cfg : Config) (c : Controls) : nvEff cfg c = true ↔ cfg.haveNV = true ∧ c.nv = true := by
  rw [nvEff, Bool.and_eq_true]

/-- The value of a register number that the field can hold (R22, R73). -/
theorem PE.readX_eq (p : PE) {n : Nat} (h : n < 32) : p.readX n = if h : n < 31 then p.x[n] else 0#64 := by
  split
  · exact PE.readX_of_lt p n ‹_›
  · rw [show n = 31 by omega, PE.readX_zeroRegister]

/-! ### The paths of an implemented instruction -/

/-- The four paths of the chain over the Exception levels (R109 to R113). -/
theorem el_paths (cfg : Config) (c : Controls) :
    c.el = .el0 ∨ c.el = .el1 ∨ issues cfg c ∨ (c.el = .el3 ∧ el2Enabled cfg c = false) := by
  cases hel : c.el with
  | el0 => exact .inl rfl
  | el1 => exact .inr (.inl rfl)
  | el2 => exact .inr (.inr (.inl (.inl hel)))
  | el3 =>
    cases hen : el2Enabled cfg c with
    | true => exact .inr (.inr (.inl (.inr ⟨hel, hen⟩)))
    | false => exact .inr (.inr (.inr ⟨rfl, rfl⟩))

theorem not_issues_of_el0 {cfg : Config} {c : Controls} (h : c.el = .el0) : ¬issues cfg c := by simp [issues, h]

theorem not_issues_of_el1 {cfg : Config} {c : Controls} (h : c.el = .el1) : ¬issues cfg c := by simp [issues, h]

theorem not_issues_of_el3 {cfg : Config} {c : Controls} (h : c.el = .el3) (hen : el2Enabled cfg c = false) :
    ¬issues cfg c := by
  simp [issues, h, hen]

section
variable {i : Instr} {s : State}

/-- Where the path reaches the issue, the instruction issues its operation and advances the `pc` (R112, R113). -/
theorem exec_of_issues (h : implemented s.cfg i = true) (hi : issues s.cfg s.pe.ctl) :
    exec i s = issueAndAdvance (attrOf i) (s.pe.readX i.rt) s :=
  (exec_of_implemented h).trans (tlbiByEL_of_issues hi)

/-- At EL3 with EL2 not enabled the instruction advances the `pc` alone (R18, R113). -/
theorem exec_of_el3_without_el2 (h : implemented s.cfg i = true) (hel : s.pe.ctl.el = .el3)
    (hen : el2Enabled s.cfg s.pe.ctl = false) : exec i s = advancePc s :=
  (exec_of_implemented h).trans (tlbiByEL_of_el3_without_el2 hel hen)

end

/-- The state after an issue, with every field of the record written out (R40, R94). -/
theorem exec_of_issues_eq {i : Instr} {s : State} {ss : SecurityState} (hrt : i.rt < 32)
    (himpl : implemented s.cfg i = true) (hi : issues s.cfg s.pe.ctl) (hss : targetSS s.cfg s.pe.ctl = some ss)
    (hpc : s.pe.pc.toNat + 4 < 2 ^ 64) :
    exec i s = .next { s with
      pes := s.pes.set s.self { s.pe with pc := s.pe.pc + 4#64 }
      ops := s.ops ++ [{
        issuer := s.self, attr := attrOf i, ss := ss, vmid := s.pe.ctl.vmid
        operand := if h : i.rt < 31 then s.pe.x[i.rt] else 0#64
        ds := if s.cfg.dsSource = .tcrEL1 then s.pe.ctl.tcrDS else s.pe.ctl.vtcrDS
        eel2 := if s.cfg.haveEL3 then s.pe.ctl.scr.eel2 else s.cfg.scrEff.eel2
        el := s.pe.ctl.el, scope := oshDomain s.cfg s.self, performed := [], waits := [] }] } := by
  rw [exec_of_issues himpl hi, issueAndAdvance_eq_next hss hpc, issueRecord, PE.readX_eq _ hrt, dsEff_eq, scrEff_eel2]
  rfl

/-- Settles O23: the base form is implemented and takes the path of the issue. -/
theorem ripas2le1osIssues : Obligations.Ripas2le1osIssues := by
  intro s rt ss hrt _ hrange hos hi hss hpc
  exact exec_of_issues_eq (i := .tlbiRipas2le1os rt) hrt ((implemented_base_iff s.cfg rt).mpr ⟨hrange, hos⟩) hi hss hpc

/-- Settles O24: the nXS form is implemented and takes the same path. -/
theorem ripas2le1osnxsIssues : Obligations.Ripas2le1osnxsIssues := by
  intro s rt ss hrt _ hrange hos hxs hi hss hpc
  exact exec_of_issues_eq (i := .tlbiRipas2le1osnxs rt) hrt
    ((implemented_nxs_iff s.cfg rt).mpr ⟨hrange, hos, hxs⟩) hi hss hpc

/-- Settles O25: that path is the advance of the `pc`. -/
theorem returnAtEL3OnlyAdvancesPc : Obligations.ReturnAtEL3OnlyAdvancesPc := by
  intro i s himpl hel hen hpc
  rw [exec_of_el3_without_el2 himpl hel hen, advancePc_eq_next hpc]
  rfl

/-- Settles O26: the chain's test at EL1, with `HCR_EL2.NV` in its two parts. -/
theorem el1TrapsOrIsUndefined : Obligations.El1TrapsOrIsUndefined := by
  intro i s himpl hel
  rw [exec_of_implemented himpl, tlbiByEL_of_el1 hel]
  simp only [Bool.and_eq_true, nvEff_iff]
  exact ⟨fun h => if_pos h, fun h => if_neg h⟩

/-! ### Exceptions and refusals -/

/-- Everything an instruction can raise: it is undefined as not implemented, at EL0, or at EL1, or trapped at EL1. -/
theorem exec_fault {i : Instr} {s : State} {f : Fault} (h : exec i s = .fault f) :
    (implemented s.cfg i = false ∨ s.pe.ctl.el = .el0) ∧ f = .undefined s.self (encode i) s.pe.pc ∨
      implemented s.cfg i = true ∧ s.pe.ctl.el = .el1 ∧
        f = if el2Enabled s.cfg s.pe.ctl && nvEff s.cfg s.pe.ctl then
            .systemAccessTrap .el2 0x18 s.self (encode i) s.pe.pc
          else .undefined s.self (encode i) s.pe.pc := by
  cases hi : implemented s.cfg i with
  | false =>
    rw [exec_of_not_implemented hi] at h
    exact .inl ⟨.inl rfl, (Host.Outcome.fault.inj h).symm⟩
  | true =>
    rw [exec_of_implemented hi] at h
    rcases tlbiByEL_fault h with ⟨hel, hf⟩ | ⟨hel, hf⟩
    · exact .inl ⟨.inr hel, hf⟩
    · exact .inr ⟨rfl, hel, hf⟩

/-- What decides about an exception: configuration, PE number, control fields and `pc`. -/
theorem exec_fault_congr {i : Instr} {s s' : State} {f : Fault} (hcfg : s.cfg = s'.cfg) (hself : s.self = s'.self)
    (hctl : s.pe.ctl = s'.pe.ctl) (hpc : s.pe.pc = s'.pe.pc) (h : exec i s = .fault f) : exec i s' = .fault f := by
  rcases exec_fault h with ⟨hnot | hel, rfl⟩ | ⟨himpl, hel, rfl⟩
  · rw [hself, hpc]
    exact exec_of_not_implemented (hcfg ▸ hnot)
  · rw [hself, hpc]
    exact exec_of_el0 (hctl ▸ hel) i
  · rw [hcfg, hctl, hself, hpc, exec_of_implemented (hcfg ▸ himpl), tlbiByEL_of_el1 (hctl ▸ hel)]
    split <;> rfl

/-- Settles O28: both sides of the comparison are `exec_fault_congr`. -/
theorem exceptionsDoNotDependOnTheOperand : Obligations.ExceptionsDoNotDependOnTheOperand := by
  refine ⟨fun i s f h => ?_, fun i s s' f hcfg hself hctl hpc => ?_⟩
  · rcases exec_fault h with ⟨_, hf⟩ | ⟨_, _, hf⟩
    · exact .inl hf
    · split at hf
      · exact .inr hf
      · exact .inl hf
  · exact ⟨exec_fault_congr hcfg hself hctl hpc, exec_fault_congr hcfg.symm hself.symm hctl.symm hpc.symm⟩

theorem advancePc_eq_pcWrap_iff (s : State) :
    advancePc s = .refused (.pcWrap s.pe.pc) ↔ 2 ^ 64 ≤ s.pe.pc.toNat + 4 := by
  refine ⟨fun h => (advancePc_refused h).1, fun h => ?_⟩
  rw [advancePc, if_neg (by omega)]

/-- The issue is refused for want of a target Security state exactly where there is none (R33). -/
theorem issueAndAdvance_eq_noTarget_iff (attr : TlbiAttr) (v : Word) (s : State) :
    issueAndAdvance attr v s = .refused .noTargetSecurityState ↔ targetSS s.cfg s.pe.ctl = none := by
  refine ⟨fun h => ?_, fun h => by simp only [issueAndAdvance, h]⟩
  rcases issueAndAdvance_refused h with ⟨hnone, _⟩ | ⟨_, hr⟩
  · exact hnone
  · cases hr

/-- The issue is refused for the wrap of the `pc` exactly where there is a target and the `pc` wraps (R23). -/
theorem issueAndAdvance_eq_pcWrap_iff (attr : TlbiAttr) (v : Word) (s : State) :
    issueAndAdvance attr v s = .refused (.pcWrap s.pe.pc) ↔
      2 ^ 64 ≤ s.pe.pc.toNat + 4 ∧ targetSS s.cfg s.pe.ctl ≠ none := by
  cases hss : targetSS s.cfg s.pe.ctl with
  | none => simp [issueAndAdvance, hss]
  | some ss =>
    simp only [issueAndAdvance, hss, ne_eq, reduceCtorEq, not_false_eq_true, and_true]
    exact advancePc_eq_pcWrap_iff (s.addOp (issueRecord s attr ss v))

/-- At EL0 and at EL1 an instruction ends in a fault, so it is not refused (R109, R111). -/
theorem exec_ne_refused {i : Instr} {s : State} (hel : s.pe.ctl.el = .el0 ∨ s.pe.ctl.el = .el1) (r : Refusal) :
    exec i s ≠ .refused r := by
  rcases hel with hel | hel
  · simp [exec_of_el0 hel]
  · rcases exec_of_el1 hel i with h | h <;> simp [h]

/-- The refusal of an issue without a target Security state, over all paths. -/
theorem exec_eq_noTarget_iff {i : Instr} {s : State} (himpl : implemented s.cfg i = true) :
    exec i s = .refused .noTargetSecurityState ↔ issues s.cfg s.pe.ctl ∧ targetSS s.cfg s.pe.ctl = none := by
  rcases el_paths s.cfg s.pe.ctl with hel | hel | hi | ⟨hel, hen⟩
  · simp [exec_ne_refused (.inl hel), not_issues_of_el0 hel]
  · simp [exec_ne_refused (.inr hel), not_issues_of_el1 hel]
  · rw [exec_of_issues himpl hi, issueAndAdvance_eq_noTarget_iff, and_iff_right hi]
  · rw [exec_of_el3_without_el2 himpl hel hen]
    refine iff_of_false (fun h => ?_) fun h => not_issues_of_el3 hel hen h.1
    cases (advancePc_refused h).2

/-- The refusal of a wrap of the `pc`, over all paths. -/
theorem exec_eq_pcWrap_iff {i : Instr} {s : State} (himpl : implemented s.cfg i = true) :
    exec i s = .refused (.pcWrap s.pe.pc) ↔ 2 ^ 64 ≤ s.pe.pc.toNat + 4 ∧
      ((issues s.cfg s.pe.ctl ∧ ¬targetSS s.cfg s.pe.ctl = none) ∨
        (s.pe.ctl.el = .el3 ∧ el2Enabled s.cfg s.pe.ctl = false)) := by
  rcases el_paths s.cfg s.pe.ctl with hel | hel | hi | ⟨hel, hen⟩
  · simp [exec_ne_refused (.inl hel), not_issues_of_el0 hel, hel]
  · simp [exec_ne_refused (.inr hel), not_issues_of_el1 hel, hel]
  · have hnot : ¬(s.pe.ctl.el = .el3 ∧ el2Enabled s.cfg s.pe.ctl = false) :=
      fun h => not_issues_of_el3 h.1 h.2 hi
    rw [exec_of_issues himpl hi, issueAndAdvance_eq_pcWrap_iff, or_iff_left hnot, and_iff_right hi]
  · rw [exec_of_el3_without_el2 himpl hel hen, advancePc_eq_pcWrap_iff, and_iff_left (.inr ⟨hel, hen⟩)]

/-- Settles O29: the two refusals over all paths, and the chain has no third. -/
theorem executionRefusedOnlyWhereTheSpecRefuses : Obligations.ExecutionRefusedOnlyWhereTheSpecRefuses := by
  intro i s himpl issuing scr noTarget
  have hnone : targetSS s.cfg s.pe.ctl = none ↔ noTarget := targetSS_eq_none s.cfg s.pe.ctl
  refine ⟨?noTarget, ?pcWrap, fun r h => ?only⟩
  case noTarget =>
    rw [← hnone]
    exact exec_eq_noTarget_iff himpl
  case pcWrap =>
    rw [← hnone]
    exact exec_eq_pcWrap_iff himpl
  case only =>
    rw [exec_of_implemented himpl] at h
    rcases tlbiByEL_refused h with ⟨_, _, hr⟩ | ⟨_, hr⟩
    · exact .inl hr
    · exact .inr hr

/-! ### The frame -/

/-- The next state is that of the advance of the `pc`, with at most one more record. -/
theorem exec_next_withNextPc {i : Instr} {s t : State} (h : exec i s = .next t) :
    ∃ l, (l = s.ops ∨ ∃ op, l = s.ops ++ [op]) ∧ t = ({ s with ops := l } : State).withNextPc := by
  obtain ⟨_, _, ⟨_, ss, _, rfl⟩ | ⟨_, _, rfl⟩⟩ := exec_next h
  · exact ⟨_, .inr ⟨_, rfl⟩, rfl⟩
  · exact ⟨_, .inl rfl, rfl⟩

/-- Settles O30: the advance writes the `pc` of the executing PE alone. -/
theorem instructionWritesOnlyPcAndOps : Obligations.InstructionWritesOnlyPcAndOps := by
  intro i s t h
  obtain ⟨l, hl, rfl⟩ := exec_next_withNextPc h
  refine ⟨hl, State.withNextPc_pes_length _, fun n => ⟨State.withNextPc_peAt_x _ n, State.withNextPc_peAt_ctl _ n,
    State.withNextPc_peAt_fault _ n, fun hn => ?other⟩, fun hself => ?own, fun a => ?tlb, rfl, rfl, rfl, rfl, rfl,
    rfl, fun _ => rfl⟩
  case other => exact (State.peAt_withNextPc _ n).trans (if_neg fun hs => hn hs.1)
  case own => exact (State.withNextPc_peAt_pc _ s.self).trans (if_pos ⟨rfl, hself⟩)
  case tlb =>
    rw [State.tlb_withNextPc]
    cases a <;> rfl

/-- Settles O31: the operand is read from the zero register, and its `TG` is the reserved value. -/
theorem zeroRegisterPromisesNothing : Obligations.ZeroRegisterPromisesNothing := by
  intro i s t hrt h
  obtain ⟨_, _, ⟨_, ss, _, rfl⟩ | ⟨_, _, rfl⟩⟩ := exec_next h
  · have hzero : (issueRecord s (attrOf i) ss (s.pe.readX i.rt)).operand = 0#64 := by
      rw [hrt, PE.readX_zeroRegister, issueRecord]
    refine .inr ⟨_, rfl, hzero, fun u a => Op.required_of_not_guarantee (Op.not_guarantee_of (.inl ?_)) a⟩
    rw [hzero]
    rfl
  · exact .inl rfl

/-- Settles O32: every path that issues is at EL2 or has EL2 enabled. -/
theorem noInvalidationWithoutEL2 : Obligations.NoInvalidationWithoutEL2 := by
  intro i s t hno hel h
  obtain ⟨_, _, ⟨hi, _⟩ | ⟨_, _, rfl⟩⟩ := exec_next h
  · rcases hi with hel2 | ⟨_, hen⟩
    · exact absurd hel2 hel
    · rw [el2Enabled, hno, Bool.false_and] at hen
      cases hen
  · rfl

/-! ### The placed word -/

/-- A word is the word of its own value in a table of 32-bit words. -/
theorem tableWord_toNat (w : InstrWord) : tableWord 32 w.toNat = w := by
  rw [tableWord, Nat.mod_eq_of_lt w.isLt, BitVec.ofNat_toNat, BitVec.setWidth_eq]

/-- The four bytes read as a word are read one by one. -/
theorem Memory.read_of_readWord {m : List Host.Cell} {pc : Word} {w : InstrWord}
    (h : Memory.readWord m pc = some (bytesOfWord w)) {j : Nat} (hj : j < 4) :
    Memory.read m (byteAddr pc j) = some (w.extractLsb' (8 * j) 8) := by
  simp only [Memory.readWord, bytesOfWord, Option.bind_eq_bind, Option.bind_eq_some_iff, Option.pure_def,
    Option.some.injEq, List.cons.injEq, and_true] at h
  obtain ⟨_, h0, _, h1, _, h2, _, h3, rfl, rfl, rfl, rfl⟩ := h
  interval_cases j
  · exact h0
  · exact h1
  · exact h2
  · exact h3

/-- Storing a word writes its four bytes and no other. -/
theorem Memory.read_writeWord_of_ne {m : List Host.Cell} {pc : Word} {addr : Nat} (w : InstrWord)
    (h : ∀ j < 4, addr ≠ byteAddr pc j) : Memory.read (Memory.writeWord m pc w) addr = Memory.read m addr := by
  simp only [Memory.writeWord, Memory.read_write, if_neg (h 0 (by decide)), if_neg (h 1 (by decide)),
    if_neg (h 2 (by decide)), if_neg (h 3 (by decide))]

/-- The text after the load of a word. -/
theorem State.withFetchWord_mem (s : State) (w : InstrWord) :
    (s.withFetchWord 32 w.toNat).mem = Memory.writeWord s.mem s.pe.pc w := by
  rw [State.withFetchWord, tableWord_toNat]

/-- Settles O37: the word is read back byte by byte, and the other bytes are not written. -/
theorem placedWordIsLittleEndian : Obligations.PlacedWordIsLittleEndian := by
  intro s w t
  have hmem : t.mem = Memory.writeWord s.mem s.pe.pc w := s.withFetchWord_mem w
  rw [hmem]
  refine ⟨fun j hj => ?address, fun j => Memory.read_of_readWord (Memory.readWord_writeWord s.mem s.pe.pc w),
    fun addr => Memory.read_writeWord_of_ne w, Memory.wf_writeWord s.mem s.pe.pc w⟩
  case address =>
    rw [byteAddr, BitVec.toNat_add, BitVec.toNat_ofNat]
    omega

/-- The state in which the placed word is run: the load done and the schedule as it was. -/
def State.placed (s : State) (w : InstrWord) : State := { s.withFetchWord 32 w.toNat with schedule := s.schedule }

theorem State.peAt_placed (s : State) (w : InstrWord) (hself : s.self < s.pes.length) (n : Nat) :
    (s.placed w).peAt n = if n = s.self then { s.pe with fault := none } else s.peAt n :=
  State.peAt_setPE s s.self n { s.pe with fault := none } hself

theorem State.pe_placed (s : State) (w : InstrWord) (hself : s.self < s.pes.length) :
    (s.placed w).pe = { s.pe with fault := none } :=
  (s.peAt_placed w hself s.self).trans (if_pos rfl)

theorem State.tlb_placed (s : State) (w : InstrWord) (hself : s.self < s.pes.length) (a : Agent) :
    (s.placed w).tlb a = s.tlb a := by
  cases a with
  | smmu n => rfl
  | pe n =>
    simp only [State.tlb, State.peAt_placed s w hself]
    split
    · rename_i hn
      rw [hn, State.pe]
    · rfl

/-- After the load PE `self` is next (assumption 11). -/
theorem State.withFetchWord_movesNext (s : State) (w : InstrWord) (hself : s.self < s.pes.length) :
    (s.withFetchWord 32 w.toNat).MovesNext (s.placed w) := by
  cases hs : s.schedule with
  | nil => exact .inl ⟨by simp [State.withFetchWord, hs], by simp [State.placed, State.withFetchWord, hs]⟩
  | cons ev rest =>
    refine .inr ⟨s.self, s.schedule, by simp [State.withFetchWord, hs], ?_, rfl⟩
    simpa [State.withFetchWord] using hself

/-- Settles O36: the fetch reads the placed word, which decodes to its instruction. -/
theorem placedWordIsRunNext : Obligations.PlacedWordIsRunNext := by
  intro s i hwf hself hpc
  have hpe := s.pe_placed (encode i) hself
  have hbytes : Memory.readWord (s.placed (encode i)).mem (s.placed (encode i)).pe.pc =
      some (bytesOfWord (encode i)) := by
    rw [hpe, State.placed, State.withFetchWord_mem]
    exact Memory.readWord_writeWord s.mem s.pe.pc (encode i)
  have hdecode : decode (encodeBytes i) = .instr i [] := by
    simpa using decodeInvertsEncode i [] hwf
  obtain ⟨hn, hf, hr⟩ := stepPE_of_executeOne (u := s.placed (encode i)) (by rw [hpe])
  rw [executeOne_of_instr (fetch_instr (by rw [hpe]; exact hpc) hbytes hdecode)] at hn hf hr
  rw [step_of_movesNext (s.withFetchWord_movesNext (encode i) hself)]
  exact ⟨s.placed (encode i), rfl, rfl, rfl, rfl, rfl, hpe, s.tlb_placed (encode i) hself, hn, hf, hr⟩

end Sys2Proof.Machine
